-- ==== Sys2Proof/Word.lean ====
section
/-! DEFINITION. The word types of the block (00_scope.md R8, R10, R11). Unsigned values only; the addition of
R10, `a +64 b`, is the `+` of `Word64`. -/

namespace Sys2Proof

/-- `u8` (R10). -/
abbrev Byte := BitVec 8

/-- `u64` (R10): descriptor words, seeds, nonces, lengths, pointers, results. -/
abbrev Word64 := BitVec 64

/-- `Block128` (R11): byte `i` is bits `8i+7 .. 8i`, the low half is bits `63 .. 0`. -/
abbrev Block128 := BitVec 128

end Sys2Proof
end

