-- ==== Sys2Proof/Machine/Bytes.lean ====
section
/-! DEFINITION. Byte order (20_memory.md R53, 00_scope.md R11): numbers as byte strings, least significant byte
first, and a block as sixteen bytes. "Everything is little-endian and cannot be switched." -/

namespace Sys2Proof.Machine

/-- The number a byte string denotes, byte 0 least significant (00_scope.md R11). -/
def leNat : List Byte → Nat
  | [] => 0
  | b :: bs => b.toNat + 256 * leNat bs

/-- The `n` low bytes of a number, byte 0 first. -/
def leBytes : Nat → Nat → List Byte
  | 0, _ => []
  | n + 1, x => BitVec.ofNat 8 x :: leBytes n (x / 256)

/-- The u64 a byte string denotes; bytes it lacks are zero. -/
def word64OfBytes (bs : List Byte) : Word64 := BitVec.ofNat 64 (leNat bs)

/-- The eight bytes of a u64, least significant first. -/
def bytesOfWord64 (w : Word64) : List Byte := leBytes 8 w.toNat

/-- `X.byte[i] = X[8i+7:8i]` (00_scope.md R11). -/
def blockByte (X : Block128) (i : Nat) : Byte := X.extractLsb' (8 * i) 8

/-- The sixteen bytes of a block, byte 0 first. -/
def bytesOfBlock (X : Block128) : List Byte := (List.range 16).map (blockByte X)

/-- The block whose bytes are `bs`, byte 0 first; bytes it lacks are zero. -/
def blockOfBytes (bs : List Byte) : Block128 := BitVec.ofNat 128 (leNat bs)

/-- The block with byte `i` replaced by `b`. -/
def setBlockByte (X : Block128) (i : Nat) (b : Byte) : Block128 :=
  blockOfBytes ((bytesOfBlock X).set i b)

end Sys2Proof.Machine
end

