-- ==== Sys2Proof/Syntax.lean ====
section
/-! DEFINITION. The commands of the unit, one constructor per row of spec/opcode_table.json (30_encoding.md R74),
with the operands R73 gives each format. Operand words a format ignores are no part of the command. -/

namespace Sys2Proof

/-- A host command (30_encoding.md R70, R73, R74). A context index is the number carried by an 8-bit field
(R72, R81); pointers, lengths, seeds, nonces and blocks are whole words used as they stand (R81). -/
inductive Instr where
  /-- `AES_ROUND state, key`: `state = {W1, W2}`, `key = {W3, W4}` (40_aes_round.md R99). -/
  | aesRound (state key : Block128)
  /-- `BYTESUM ptr, len` (46_bytesum.md R191). -/
  | byteSum (ptr len : Word64)
  /-- `HASH ptr, len, seed` (44_single_shot_hash.md R151). -/
  | hash (ptr len seed : Word64)
  /-- `GENERATE dst, len, nonce` (47_generate.md R196). -/
  | generate (dst len nonce : Word64)
  /-- `HASH_STATE_INIT c<a>, seed` (45_streaming_hash.md R166). -/
  | hashStateInit (a : Nat) (seed : Word64)
  /-- `HASH_STATE_STREAM c<a>, ptr, len` (45_streaming_hash.md R167). -/
  | hashStateStream (a : Nat) (ptr len : Word64)
  /-- `HASH_STATE_FOLD c<a>` (45_streaming_hash.md R168). -/
  | hashStateFold (a : Nat)
  /-- `HASH_STATE_EQUAL c<a>, c<b>` (45_streaming_hash.md R169). -/
  | hashStateEqual (a b : Nat)
  deriving DecidableEq, Repr

end Sys2Proof
end

