-- ==== Sys2Proof/WellFormed.lean ====
section
/-! DEFINITION. Which commands a descriptor can carry: a context index is an 8-bit field (30_encoding.md R72), so
it is below 256. Every other operand is a whole word and every value of it is legal. Whether an index is below
`NCTX` is not a matter of form: that is the `BAD_CONTEXT` check of R77. -/

namespace Sys2Proof

/-- A context index fits its 8-bit field (30_encoding.md R72). -/
def ctxFits (c : Nat) : Bool := decide (c < 256)

/-- The command has an encoding (30_encoding.md R72, R73). -/
def Instr.wellFormed : Instr → Bool
  | .aesRound _ _ => true
  | .byteSum _ _ => true
  | .hash _ _ _ => true
  | .generate _ _ _ => true
  | .hashStateInit a _ => ctxFits a
  | .hashStateStream a _ _ => ctxFits a
  | .hashStateFold a => ctxFits a
  | .hashStateEqual a b => ctxFits a && ctxFits b

end Sys2Proof
end

