-- ==== Sys2Proof/Decode.lean ====
section
/-! DEFINITION. The descriptor (30_encoding.md R71, R72), the opcode map (R74), the decoder total on every byte
string (R75, R78), the encoder, and the text form of a command (R79). -/

namespace Sys2Proof

/-- The five words of a descriptor (30_encoding.md R71): `W0` is the command word, `W1 .. W4` operand words. -/
structure Descriptor where
  w0 : Word64
  w1 : Word64
  w2 : Word64
  w3 : Word64
  w4 : Word64
  deriving DecidableEq, Repr

/-- The bytes of a descriptor: `Wk` in bytes `8k .. 8k+7`, each little-endian (R71). -/
def Descriptor.toBytes (d : Descriptor) : List Byte :=
  Machine.bytesOfWord64 d.w0 ++ Machine.bytesOfWord64 d.w1 ++ Machine.bytesOfWord64 d.w2 ++
    Machine.bytesOfWord64 d.w3 ++ Machine.bytesOfWord64 d.w4

/-- Word `Wk` of a byte string (R71). -/
def descriptorWord (bs : List Byte) (k : Nat) : Word64 :=
  Machine.word64OfBytes ((bs.drop (8 * k)).take 8)

/-- The five words of 40 bytes (R71). -/
def Descriptor.ofBytes (bs : List Byte) : Descriptor :=
  ⟨descriptorWord bs 0, descriptorWord bs 1, descriptorWord bs 2, descriptorWord bs 3, descriptorWord bs 4⟩

/-- `W0[7:0]` (R72). -/
def opcodeField (w0 : Word64) : BitVec 8 := w0.extractLsb' 0 8

/-- `W0[15:8]` (R72). -/
def ctxAField (w0 : Word64) : BitVec 8 := w0.extractLsb' 8 8

/-- `W0[23:16]` (R72). -/
def ctxBField (w0 : Word64) : BitVec 8 := w0.extractLsb' 16 8

/-- `W0[63:24]`, must be zero (R72). -/
def reservedField (w0 : Word64) : BitVec 40 := w0.extractLsb' 24 40

/-- The eight opcodes (R74). -/
inductive Opcode where
  | aesRound
  | byteSum
  | hash
  | generate
  | hashStateInit
  | hashStateStream
  | hashStateFold
  | hashStateEqual
  deriving DecidableEq, Repr

/-- A row of the opcode map: a descriptor selects it when `W0 & mask = match` (R74). -/
structure OpcodeRow where
  opcode : Opcode
  mask : Word64
  pattern : Word64
  deriving DecidableEq, Repr

/-- The opcode map of R74. -/
def opcodeMap : List OpcodeRow :=
  [⟨.aesRound, 0xFFFFFFFFFFFFFFFF, 0x0000000000000001⟩,
   ⟨.byteSum, 0xFFFFFFFFFFFFFFFF, 0x0000000000000002⟩,
   ⟨.hash, 0xFFFFFFFFFFFFFFFF, 0x0000000000000003⟩,
   ⟨.generate, 0xFFFFFFFFFFFFFFFF, 0x0000000000000004⟩,
   ⟨.hashStateInit, 0xFFFFFFFFFFFF00FF, 0x0000000000000010⟩,
   ⟨.hashStateStream, 0xFFFFFFFFFFFF00FF, 0x0000000000000011⟩,
   ⟨.hashStateFold, 0xFFFFFFFFFFFF00FF, 0x0000000000000012⟩,
   ⟨.hashStateEqual, 0xFFFFFFFFFF0000FF, 0x0000000000000013⟩]

/-- The command word selects the row (R74). -/
def OpcodeRow.selectedBy (row : OpcodeRow) (w0 : Word64) : Bool := w0 &&& row.mask == row.pattern

/-- "row <- the row of rule R74 with (W0 & row.mask) = row.match, if any" (R78). -/
def selectRow (w0 : Word64) : Option OpcodeRow := opcodeMap.find? (fun row => row.selectedBy w0)

/-- Why a byte string is no legal descriptor (R75). A descriptor of 40 bytes rejected for any of the last three
reasons gets the one status `ILLEGAL_COMMAND`; the reasons are names of the model. -/
inductive Reject where
  /-- Not 40 bytes, so not a descriptor at all (R71). The command port carries 40 bytes, so a step never meets it. -/
  | wrongLength
  /-- `W0[7:0]` is none of the eight opcodes (R75). -/
  | unassignedOpcode
  /-- A bit of `W0[63:24]` is set (R75). -/
  | reservedBits
  /-- A context field is nonzero that the command does not use (R75). -/
  | unusedContextField
  deriving DecidableEq, Repr

/-- The reason to give for a command word that selects no row. -/
def rejectReason (w0 : Word64) : Reject :=
  if opcodeMap.all (fun row => opcodeField row.pattern != opcodeField w0) then .unassignedOpcode
  else if reservedField w0 != 0 then .reservedBits
  else .unusedContextField

/-- The block `{a, b}`: low half `a`, high half `b`, as an integer `a + 2^64·b` (00_scope.md R11,
41_block_primitives.md R110). -/
def blockOfHalves (a b : Word64) : Block128 := BitVec.ofNat 128 (a.toNat + 2 ^ 64 * b.toNat)

/-- The operands of a command (R73), by its opcode. -/
def assemble (op : Opcode) (d : Descriptor) : Instr :=
  match op with
  | .aesRound => .aesRound (blockOfHalves d.w1 d.w2) (blockOfHalves d.w3 d.w4)
  | .byteSum => .byteSum d.w1 d.w2
  | .hash => .hash d.w1 d.w2 d.w3
  | .generate => .generate d.w1 d.w2 d.w3
  | .hashStateInit => .hashStateInit (ctxAField d.w0).toNat d.w3
  | .hashStateStream => .hashStateStream (ctxAField d.w0).toNat d.w1 d.w2
  | .hashStateFold => .hashStateFold (ctxAField d.w0).toNat
  | .hashStateEqual => .hashStateEqual (ctxAField d.w0).toNat (ctxBField d.w0).toNat

/-- The decoder over the five words (R75, R78). -/
def decodeWords (d : Descriptor) : Except Reject Instr :=
  match selectRow d.w0 with
  | none => .error (rejectReason d.w0)
  | some row => .ok (assemble row.opcode d)

/-- The decoder, total on byte strings (R71, R75, R78). -/
def decode (bs : List Byte) : Except Reject Instr :=
  if bs.length = 40 then decodeWords (Descriptor.ofBytes bs) else .error .wrongLength

/-- The opcode of a command. -/
def Instr.opcode : Instr → Opcode
  | .aesRound _ _ => .aesRound
  | .byteSum _ _ => .byteSum
  | .hash _ _ _ => .hash
  | .generate _ _ _ => .generate
  | .hashStateInit _ _ => .hashStateInit
  | .hashStateStream _ _ _ => .hashStateStream
  | .hashStateFold _ => .hashStateFold
  | .hashStateEqual _ _ => .hashStateEqual

/-- The number in `W0[7:0]` (R74). -/
def Opcode.code : Opcode → BitVec 8
  | .aesRound => 0x01
  | .byteSum => 0x02
  | .hash => 0x03
  | .generate => 0x04
  | .hashStateInit => 0x10
  | .hashStateStream => 0x11
  | .hashStateFold => 0x12
  | .hashStateEqual => 0x13

/-- The command word: the opcode in bits 7..0, the context indices in bits 15..8 and 23..16, the rest zero (R72). -/
def commandWord (op : Opcode) (a b : Nat) : Word64 :=
  BitVec.ofNat 64 (op.code.toNat + 2 ^ 8 * (a % 2 ^ 8) + 2 ^ 16 * (b % 2 ^ 8))

/-- The low half of a block (00_scope.md R11). -/
def lowHalf (X : Block128) : Word64 := X.extractLsb' 0 64

/-- The high half of a block (00_scope.md R11). -/
def highHalf (X : Block128) : Word64 := X.extractLsb' 64 64

/-- The descriptor of a command; an ignored operand word (R73) is written as zero. -/
def encodeWords : Instr → Descriptor
  | .aesRound X K => ⟨commandWord .aesRound 0 0, lowHalf X, highHalf X, lowHalf K, highHalf K⟩
  | .byteSum ptr len => ⟨commandWord .byteSum 0 0, ptr, len, 0, 0⟩
  | .hash ptr len seed => ⟨commandWord .hash 0 0, ptr, len, seed, 0⟩
  | .generate dst len nonce => ⟨commandWord .generate 0 0, dst, len, nonce, 0⟩
  | .hashStateInit a seed => ⟨commandWord .hashStateInit a 0, 0, 0, seed, 0⟩
  | .hashStateStream a ptr len => ⟨commandWord .hashStateStream a 0, ptr, len, 0, 0⟩
  | .hashStateFold a => ⟨commandWord .hashStateFold a 0, 0, 0, 0, 0⟩
  | .hashStateEqual a b => ⟨commandWord .hashStateEqual a b, 0, 0, 0, 0⟩

/-- The encoder: the 40 bytes of a well-formed command (R71 to R74). -/
def encode (i : Instr) : List Byte := (encodeWords i).toBytes

/-- The decoder on a number: `W0` is bits 63..0, each later word counts on (the numbering of
spec/opcode_table.json); bits above `nbits` are zero. -/
def decodeTableWord (nbits w : Nat) : Option Instr :=
  match decode (Machine.leBytes 40 (w % 2 ^ nbits)) with
  | .ok i => some i
  | .error _ => none

/-- The mnemonic of a command (R74, R79). -/
def Opcode.mnemonic : Opcode → String
  | .aesRound => "AES_ROUND"
  | .byteSum => "BYTESUM"
  | .hash => "HASH"
  | .generate => "GENERATE"
  | .hashStateInit => "HASH_STATE_INIT"
  | .hashStateStream => "HASH_STATE_STREAM"
  | .hashStateFold => "HASH_STATE_FOLD"
  | .hashStateEqual => "HASH_STATE_EQUAL"

/-- Every name the text form accepts for a command: its mnemonic, and the operation names of the source
(R79, 00_scope.md R17). `AES_ROUND` has no such name: the source exposes no such operation. -/
def Opcode.names : Opcode → List String
  | .aesRound => ["AES_ROUND"]
  | .byteSum => ["BYTESUM", "bytesum"]
  | .hash => ["HASH", "hash"]
  | .generate => ["GENERATE", "generate"]
  | .hashStateInit => ["HASH_STATE_INIT", "hash_state_init", "init"]
  | .hashStateStream => ["HASH_STATE_STREAM", "hash_state_stream", "stream"]
  | .hashStateFold => ["HASH_STATE_FOLD", "hash_state_fold", "fold"]
  | .hashStateEqual => ["HASH_STATE_EQUAL", "hash_state_equal"]

/-- The command a name stands for (R79). -/
def opcodeOfName (name : String) : Option Opcode :=
  (opcodeMap.map OpcodeRow.opcode).find? (fun op => op.names.contains name)

/-- The operands of the text form, in the order of R79; numbers are decimal, a context is `c<n>`. -/
def Instr.operandTexts : Instr → List String
  | .aesRound X K => [toString X.toNat, toString K.toNat]
  | .byteSum ptr len => [toString ptr.toNat, toString len.toNat]
  | .hash ptr len seed => [toString ptr.toNat, toString len.toNat, toString seed.toNat]
  | .generate dst len nonce => [toString dst.toNat, toString len.toNat, toString nonce.toNat]
  | .hashStateInit a seed => ["c" ++ toString a, toString seed.toNat]
  | .hashStateStream a ptr len => ["c" ++ toString a, toString ptr.toNat, toString len.toNat]
  | .hashStateFold a => ["c" ++ toString a]
  | .hashStateEqual a b => ["c" ++ toString a, "c" ++ toString b]

/-- The text form of a command: mnemonic, then the operands separated by commas (R79). -/
def Instr.text (i : Instr) : String :=
  i.opcode.mnemonic ++ " " ++ ", ".intercalate i.operandTexts

end Sys2Proof
end

