-- ==== Sys2Proof/Machine/Constants.lean ====
section
/-! DEFINITION. The read-only constants `PI` and `S` (10_state.md R29 to R31). The third constant, the S-box, is in
Aes.lean. -/

namespace Sys2Proof.Machine

/-- The sixteen words of the π table (10_state.md R30). -/
def piTable : List Word64 :=
  [0x243F6A8885A308D3, 0x13198A2E03707344, 0xA4093822299F31D0, 0x082EFA98EC4E6C89,
   0x452821E638D01377, 0xBE5466CF34E90C6C, 0xC0AC29B7C97C50DD, 0x3F84D5B5B5470917,
   0x9216D5D98979FB1B, 0xD1310BA698DFB5AC, 0x2FFD72DBD01ADFB7, 0xB8E1AFED6A267E96,
   0xBA7C9045F12C7F99, 0x24A19947B3916CF7, 0x0801F2E2858EFC16, 0x636920D871574E69]

/-- `PI[k]`, `k` in 0..15. -/
def piWord (k : Nat) : Word64 := piTable.getD k 0

/-- `S[0..15]`, the source-byte index for each destination byte (10_state.md R31). -/
def shuffleTable : List Nat :=
  [0x04, 0x0b, 0x09, 0x06, 0x08, 0x0d, 0x0f, 0x05, 0x0e, 0x03, 0x01, 0x0c, 0x00, 0x07, 0x0a, 0x02]

end Sys2Proof.Machine
end

