-- ==== Sys2Proof/Machine/Block.lean ====
section
/-! DEFINITION. The block helpers (41_block_primitives.md). `{a, b}` and the halves are `blockOfHalves`, `lowHalf` and
`highHalf` of Decode.lean (R110). -/

namespace Sys2Proof.Machine

/-- `shuffle(X, S)`: `Y.byte[d] = X.byte[S[d]]` (R112). -/
def shuffle (X : Block128) : Block128 := blockOfBytes (shuffleTable.map (blockByte X))

/-- `add64x2(X, Y)`: each half wraps, no carry crosses (R113). -/
def add64x2 (X Y : Block128) : Block128 :=
  blockOfHalves (lowHalf X + lowHalf Y) (highHalf X + highHalf Y)

/-- The additive mix step `mix(sum, B)` (R116). -/
def mix (sum B : Block128) : Block128 := add64x2 (shuffle sum) B

/-- `shr_bytes(X, k)` (R114). -/
def shrBytes (X : Block128) (k : Nat) : Block128 :=
  blockOfBytes ((List.range 16).map fun i => if i + k ≤ 15 then blockByte X (i + k) else 0)

/-- `load_block(text, off, n)` (R115). -/
def loadBlock (text : List Byte) (off n : Nat) : Block128 := blockOfBytes ((text.drop off).take n)

end Sys2Proof.Machine
end

