-- ==== Sys2Proof/Config.lean ====
section
/-! DEFINITION. What is fixed when a unit is built: its name and the three launch parameters of 00_scope.md R9.
The parameters of R8 (block width, lanes, buffer size, table sizes) are not configurable and stand in the types. -/

namespace Sys2Proof

/-- The identity string the spec gives the block (00_scope.md R1). -/
def Config.identity : String := "SZHASH-D0"

/-- The launch parameters of 00_scope.md R9. "No rule's result value depends on any of the three; they decide
only which commands are admitted." -/
structure Config where
  /-- `NCTX`, the number of hash-state contexts, 1 to 256. -/
  nctx : Nat
  /-- `ADDR_W`, the width in bits of a data-memory address, 1 to 64. -/
  addrW : Nat
  /-- `GEN_DST_ALIGN`, the alignment in bytes of a `GENERATE` destination, a power of two from 1 to 64. -/
  genDstAlign : Nat
  deriving DecidableEq, Repr

/-- The ranges of R9. -/
def Config.wf (c : Config) : Bool :=
  decide (1 ≤ c.nctx) && decide (c.nctx ≤ 256) && decide (1 ≤ c.addrW) && decide (c.addrW ≤ 64) &&
    [1, 2, 4, 8, 16, 32, 64].contains c.genDstAlign

/-- The defaults of R9. -/
def Config.standard : Config := ⟨2, 64, 64⟩

end Sys2Proof
end

