-- ==== Sys2Proof/Machine/State.lean ====
section
/-! DEFINITION. The state of the unit as plain data (10_state.md R20 to R26), the host's side of the three ports
(30_encoding.md R70, 70_reset_and_hazards.md R226), the reasons to stop, and the state after reset (R35, R220). -/

namespace Sys2Proof.Machine

/-- A 512-bit register: four `Block128` lanes (00_scope.md R12). -/
structure Reg512 where
  lane0 : Block128
  lane1 : Block128
  lane2 : Block128
  lane3 : Block128
  deriving DecidableEq, Repr

/-- The minimal register file, `M` (10_state.md R24). -/
structure MinimalState where
  aes : Block128
  sum : Block128
  key : Block128
  deriving DecidableEq, Repr

/-- A full-state register file: a context `F[c]` (10_state.md R22) or the working file `W` (R25). -/
structure FullState where
  /-- The four AES chains. -/
  aes : Reg512
  /-- The four additive chains. -/
  sum : Reg512
  /-- The staging buffer. -/
  ins : Reg512
  /-- The key. -/
  key : Block128
  /-- The byte counter. -/
  insLength : Word64
  deriving DecidableEq, Repr

/-- The data memory: the listed bytes, addresses strictly rising; what an unlisted address reads as is
`unlistedByte` (Ops.lean). -/
abbrev Memory := List Host.Cell

/-- A block of addresses `base .. base + size - 1` that the host has made readable or writable. -/
structure Region where
  base : Nat
  size : Nat
  deriving DecidableEq, Repr

/-- An access of the host itself to one byte of the data memory, between the acceptance of a command and its
response (20_memory.md R63). -/
inductive HostAccess where
  | read (addr : Nat)
  | write (addr : Nat) (value : Byte)
  deriving DecidableEq, Repr

/-- What the host gives a command from acceptance to response: the launch-memory predicate (20_memory.md R59) as
two lists of regions, and the accesses the host itself makes meanwhile (R63). -/
structure Grant where
  readable : List Region
  writable : List Region
  during : List HostAccess
  deriving DecidableEq, Repr

/-- Nothing granted: "After the response every buffer is the host's again" (70_reset_and_hazards.md R227). -/
def Grant.empty : Grant := ⟨[], [], []⟩

/-- One command as the host presents it (70_reset_and_hazards.md R226): the 40 descriptor bytes (30_encoding.md
R71), what the host stores in its data memory before the command is accepted, and the grant. -/
structure Request where
  descriptor : Vector Byte 40
  stores : List Host.Cell
  grant : Grant
  deriving DecidableEq, Repr

/-- The status of a response (30_encoding.md R77); `Status.code` (Flags.lean) is its number. -/
inductive Status where
  | ok
  | illegalCommand
  | badContext
  deriving DecidableEq, Repr

/-- A response (30_encoding.md R76). -/
structure Response where
  status : Status
  value : BitVec 128
  deriving DecidableEq, Repr

/-- The machine. `contexts`, `min` and `work` are the block's registers (10_state.md R20); `addrW` and
`genDstAlign` are launch parameters (00_scope.md R9), the third, `NCTX`, being the length of `contexts`; `mem` is the host's
data memory (20_memory.md R50); `grant`, `host` and `responses` are the model's own, the traffic on the ports. -/
structure State where
  /-- `ADDR_W`. -/
  addrW : Nat
  /-- `GEN_DST_ALIGN`. -/
  genDstAlign : Nat
  /-- `F[0] .. F[NCTX-1]`; `none` is a context that holds no value, the state the spec gives it from reset until
  `HASH_STATE_INIT` writes it: "not zero and not any fixed pattern" (10_state.md R36, 70_reset_and_hazards.md R220). -/
  contexts : List (Option FullState)
  /-- The minimal file `M` (10_state.md R24). -/
  min : MinimalState
  /-- The working file `W` (10_state.md R25). -/
  work : FullState
  /-- The data memory. -/
  mem : Memory
  /-- The grant of the command being run. -/
  grant : Grant
  /-- The commands the host is going to present, in order. -/
  host : List Request
  /-- The responses delivered, oldest first (70_reset_and_hazards.md R226 a). -/
  responses : List Response
  deriving DecidableEq, Repr

/-- The block raises no exceptions and takes no traps (60_exceptions.md R205, R210), so a step never ends in a
fault and the type has no constructor. -/
inductive Fault where
  deriving DecidableEq, Repr

/-- Why a step has no meaning. All but the first are the contract violations of 60_exceptions.md R209: "For a
model each is `refuse`: the command has no step". All are safe: the model stops where the hardware goes on with an
outcome the spec does not define. -/
inductive Refusal where
  /-- An instruction without a meaning in the model; raised only by a refused arm of `exec`, and there is none.
  Safe. -/
  | notModelled (mnemonic : String)
  /-- V1: with `len > 0`, `ptr + len > 2^ADDR_W`, or a byte of the buffer that is not readable (not writable for
  `GENERATE`). Raised by `BYTESUM`, `HASH`, `HASH_STATE_STREAM`, `GENERATE`. Safe. -/
  | outOfBoundsPointer
  /-- V2: with `len > 0`, `ptr = 0`. Raised by the same four. Safe. -/
  | nullPointer
  /-- V3: with `len > 0`, `dst mod GEN_DST_ALIGN ≠ 0`. Raised by `GENERATE`. Safe. -/
  | unalignedDestination
  /-- V4: a named context has not been written by `HASH_STATE_INIT` since reset. Raised by `HASH_STATE_STREAM`,
  `HASH_STATE_FOLD`, `HASH_STATE_EQUAL`, which 10_state.md R36 says a model refuses. Safe. -/
  | contextHoldsNoValue
  /-- V5: while the command ran the host wrote a byte of its text, or read or wrote a byte of its destination.
  Raised by the four of V1. Safe. -/
  | bufferTouched
  deriving DecidableEq, Repr

/-- A 512-bit register of zeros. -/
def Reg512.zero : Reg512 := ⟨0, 0, 0, 0⟩

/-- The value the model gives `M` at reset. DESIGN CHOICE (log 5): the spec says unspecified and unobservable
(10_state.md R26, R35 b). Unsafe. -/
def MinimalState.atReset : MinimalState := ⟨0, 0, 0⟩

/-- The value the model gives `W` at reset. DESIGN CHOICE (log 5), as for `M`. Unsafe. -/
def FullState.atReset : FullState := ⟨Reg512.zero, Reg512.zero, Reg512.zero, 0, 0⟩

/-- The state after reset of a unit built with the parameters `c` (10_state.md R35, 70_reset_and_hazards.md R220):
no context holds a value, nothing is in progress, no response is pending. -/
def State.resetOf (c : Config) : State where
  addrW := c.addrW
  genDstAlign := c.genDstAlign
  contexts := List.replicate c.nctx none
  min := MinimalState.atReset
  work := FullState.atReset
  mem := []
  grant := Grant.empty
  host := []
  responses := []

/-- The state after reset, with the default parameters of 00_scope.md R9. -/
def State.reset : State := State.resetOf Config.standard

end Sys2Proof.Machine
end

