-- ==== Sys2Proof/Machine/Reg.lean ====
section
/-! DEFINITION. A 512-bit register as four lanes and as 64 bytes (00_scope.md R12, 10_state.md R23). -/

namespace Sys2Proof.Machine

/-- Lane `i` of a 512-bit register, `i` in 0..3 (00_scope.md R12). -/
def Reg512.lane (r : Reg512) (i : Nat) : Block128 :=
  if i = 0 then r.lane0 else if i = 1 then r.lane1 else if i = 2 then r.lane2 else r.lane3

/-- The register whose lane `i` is `f i`. -/
def Reg512.ofLanes (f : Nat → Block128) : Reg512 := ⟨f 0, f 1, f 2, f 3⟩

/-- Byte `j` of a 512-bit register, `r[j div 16].byte[j mod 16]` (00_scope.md R12). -/
def Reg512.byte (r : Reg512) (j : Nat) : Byte := blockByte (r.lane (j / 16)) (j % 16)

/-- The 64 bytes of a 512-bit register, in order (10_state.md R23). -/
def Reg512.bytes (r : Reg512) : List Byte := (List.range 64).map r.byte

/-- The register with byte `j` replaced (10_state.md R23). -/
def Reg512.setByte (r : Reg512) (j : Nat) (b : Byte) : Reg512 :=
  Reg512.ofLanes fun i => if i = j / 16 then setBlockByte (r.lane i) (j % 16) b else r.lane i

/-- `load_chunk(text, off, n)`: 64 bytes, the bytes past `n` zero, as four lanes (41_block_primitives.md R115). -/
def loadChunk (text : List Byte) (off n : Nat) : Reg512 :=
  Reg512.ofLanes fun i => loadBlock ((text.drop off).take n) (16 * i) 16

end Sys2Proof.Machine
end

