-- ==== Sys2Proof/Machine/Minimal.lean ====
section
/-! DEFINITION. The micro-operations on the minimal file (42_minimal_state.md). -/

namespace Sys2Proof.Machine

/-- `MIN.INIT(seed)` (R126). -/
def minInit (seed : Word64) : MinimalState where
  key := blockOfHalves seed seed
  aes := blockOfHalves (seed ^^^ piWord 0) (seed ^^^ piWord 1)
  sum := blockOfHalves (seed ^^^ piWord 8) (seed ^^^ piWord 9)

/-- `MIN.ABSORB(B)` (R127): both updates use the old values. -/
def minAbsorb (M : MinimalState) (B : Block128) : MinimalState :=
  { M with aes := aesRound M.aes B, sum := mix M.sum B }

/-- The end common to both finalizations (R128, 43_full_state.md R138): from the mixed block `m`. -/
def finish (key m : Block128) (length : Word64) : Word64 :=
  lowHalf (aesRound (aesRound m (blockOfHalves (lowHalf key + length) (highHalf key))) m)

/-- `MIN.FINALIZE(length)` (R128). -/
def minFinalize (M : MinimalState) (length : Word64) : Word64 :=
  finish M.key (aesRound M.sum M.aes) length

/-- `MIN.FROM_FULL(c)` (R129), on the register file of the context. -/
def minFromFull (F : FullState) : MinimalState where
  aes := F.aes.lane 0
  sum := F.sum.lane 0
  key := F.key

end Sys2Proof.Machine
end

