-- ==== Sys2Proof/Machine/Full.lean ====
section
/-! DEFINITION. The micro-operations on a full-state register file (43_full_state.md). -/

namespace Sys2Proof.Machine

/-- `FULL.INIT(X, seed)` (R136). -/
def fullInit (seed : Word64) : FullState where
  key := blockOfHalves seed seed
  aes := Reg512.ofLanes fun i => blockOfHalves (seed ^^^ piWord (2 * i)) (seed ^^^ piWord (2 * i + 1))
  sum := Reg512.ofLanes fun i => blockOfHalves (seed ^^^ piWord (8 + 2 * i)) (seed ^^^ piWord (8 + 2 * i + 1))
  ins := Reg512.zero
  insLength := 0

/-- `FULL.ABSORB64(X)` (R137): each lane absorbs its block of the staging buffer. -/
def fullAbsorb64 (X : FullState) : FullState :=
  { X with
    aes := Reg512.ofLanes fun i => aesRound (X.aes.lane i) (X.ins.lane i)
    sum := Reg512.ofLanes fun i => mix (X.sum.lane i) (X.ins.lane i) }

/-- `m_i` of R138: data = sum, round key = aes. -/
def fullLaneMix (X : FullState) (i : Nat) : Block128 := aesRound (X.sum.lane i) (X.aes.lane i)

/-- `FULL.FINALIZE(X)` (R138). -/
def fullFinalize (X : FullState) : Word64 :=
  finish X.key
    (aesRound (aesRound (fullLaneMix X 0) (fullLaneMix X 1)) (aesRound (fullLaneMix X 2) (fullLaneMix X 3)))
    X.insLength

end Sys2Proof.Machine
end

