-- ==== Sys2Proof/Machine/HashCore.lean ====
section
/-! DEFINITION. The functions behind `HASH` and the streaming commands (44_single_shot_hash.md,
45_streaming_hash.md), on register files and byte strings. -/

namespace Sys2Proof.Machine

/-- `blocks(text, N)` for `N = text.length ≤ 64`, from the table of 44_single_shot_hash.md R152. -/
def blocks (text : List Byte) : List Block128 :=
  let n := text.length
  if n ≤ 16 then [loadBlock text 0 n]
  else if n ≤ 32 then [loadBlock text 0 16, shrBytes (loadBlock text (n - 16) 16) (32 - n)]
  else if n ≤ 48 then
    [loadBlock text 0 16, loadBlock text 16 16, shrBytes (loadBlock text (n - 16) 16) (48 - n)]
  else
    [loadBlock text 0 16, loadBlock text 16 16, loadBlock text 32 16,
      shrBytes (loadBlock text (n - 16) 16) (64 - n)]

/-- Absorb the blocks of a short text, in list order (R151). -/
def minAbsorbText (M : MinimalState) (text : List Byte) : MinimalState := (blocks text).foldl minAbsorb M

/-- The minimal file at the end of `HASH` for `N ≤ 64` (R151). -/
def shortHashFile (text : List Byte) (seed : Word64) : MinimalState := minAbsorbText (minInit seed) text

/-- `W.ins <- chunk; FULL.ABSORB64(W)` (R154). -/
def absorbChunk (W : FullState) (chunk : Reg512) : FullState := fullAbsorb64 { W with ins := chunk }

/-- The working file at the end of `long_hash(text, N, seed)`, `N = text.length > 64` (R154). -/
def longHashFile (text : List Byte) (seed : Word64) : FullState :=
  let n := text.length
  let r := n % 64
  let W := (List.range (n / 64)).foldl (fun W q => absorbChunk W (loadChunk text (64 * q) 64)) (fullInit seed)
  let W := if 0 < r then absorbChunk W (loadChunk text (n - r) r) else W
  { W with insLength := BitVec.ofNat 64 n }

/-- The result of `HASH` on a text (R151, R154). -/
def hashValue (text : List Byte) (seed : Word64) : Word64 :=
  if text.length ≤ 64 then minFinalize (shortHashFile text seed) (BitVec.ofNat 64 text.length)
  else fullFinalize (longHashFile text seed)

/-- The fill level of the staging buffer, `ins_length mod 64` (10_state.md R27). -/
def fillLevel (F : FullState) : Nat := F.insLength.toNat % 64

/-- One turn of the loop of 45_streaming_hash.md R167. -/
def streamByte (F : FullState) (b : Byte) : FullState :=
  let o := fillLevel F
  let F := { F with ins := F.ins.setByte o b, insLength := F.insLength + 1 }
  if o = 63 then { fullAbsorb64 F with ins := Reg512.zero } else F

/-- A whole text streamed into a context (R167). -/
def streamText (F : FullState) (text : List Byte) : FullState := text.foldl streamByte F

/-- The text the short branch of a fold dispatches on: "`ins_bytes(F[a])` truncated to `L` bytes" (R168). -/
def stagedText (F : FullState) : List Byte := F.ins.bytes.take F.insLength.toNat

/-- The minimal file at the end of a fold with `L < 64` (R168). -/
def foldMinFile (F : FullState) : MinimalState := minAbsorbText (minFromFull F) (stagedText F)

/-- The result of `HASH_STATE_FOLD` on a context (R168). -/
def foldValue (F : FullState) : Word64 :=
  if 64 ≤ F.insLength.toNat then
    if 0 < fillLevel F then fullFinalize (fullAbsorb64 F) else fullFinalize F
  else minFinalize (foldMinFile F) F.insLength

/-- `HASH_STATE_EQUAL` on two contexts (R169): `aes`, `sum` and `key`, not `ins` and not `ins_length`. -/
def contextsMatch (F G : FullState) : Bool :=
  decide (F.key = G.key) && decide (F.aes = G.aes) && decide (F.sum = G.sum)

/-- The byte sum modulo 2^64 (46_bytesum.md R191). -/
def byteSumValue (text : List Byte) : Word64 := text.foldl (fun acc b => acc + b.setWidth 64) 0

/-- `block_i` of the generator (47_generate.md R196). -/
def generatorBlock (nonce : Word64) (i : Nat) : Block128 :=
  aesRound (blockOfHalves (nonce + BitVec.ofNat 64 i) (nonce + BitVec.ofNat 64 i))
    (blockOfHalves (nonce ^^^ piWord (2 * (i % 4))) (nonce ^^^ piWord (2 * (i % 4) + 1)))

/-- The first `n` bytes of the generator's stream (R196). -/
def generatorBytes (nonce : Word64) (n : Nat) : List Byte :=
  ((List.range ((n + 15) / 16)).flatMap fun i => bytesOfBlock (generatorBlock nonce i)).take n

end Sys2Proof.Machine
end

