-- ==== Sys2Proof/Machine/Ops.lean ====
section
/-! DEFINITION. The named operations over the data memory (20_memory.md), the context file (10_state.md R21) and the
ports (30_encoding.md R70, R76). -/

namespace Sys2Proof.Machine

/-- What a byte that nothing has written reads as. DESIGN CHOICE (log 6): the spec gives the data memory no content
of its own (70_reset_and_hazards.md R220). Unsafe. -/
def unlistedByte : Byte := 0

/-- The canonical form of a memory whose addresses are at least `low`: addresses strictly rising, no entry equal to
what an unlisted address reads as. -/
def memoryWfFrom : Nat → Memory → Bool
  | _, [] => true
  | low, (a, b) :: rest => decide (low ≤ a) && decide (b ≠ unlistedByte) && memoryWfFrom (a + 1) rest

/-- The canonical form. -/
def Memory.wf (m : Memory) : Bool := memoryWfFrom 0 m

/-- `mem[a]` (20_memory.md R50). -/
def readByte : Memory → Nat → Byte
  | [], _ => unlistedByte
  | (x, b) :: rest, a => if a = x then b else readByte rest a

/-- An entry in front of a memory of higher addresses, unless it says what an unlisted address says. -/
def consCell (a : Nat) (b : Byte) (m : Memory) : Memory := if b = unlistedByte then m else (a, b) :: m

/-- The memory with `mem[a] = b`, in canonical form. -/
def writeByte : Memory → Nat → Byte → Memory
  | [], a, b => consCell a b []
  | (x, c) :: rest, a, b =>
    if a < x then consCell a b ((x, c) :: rest)
    else if a = x then consCell a b rest
    else (x, c) :: writeByte rest a b

/-- The `n` bytes at `a, a+1, …` (20_memory.md R51). -/
def readBytes (m : Memory) : Nat → Nat → List Byte
  | _, 0 => []
  | a, n + 1 => readByte m a :: readBytes m (a + 1) n

/-- Byte `v[i]` stored at `a + i` (20_memory.md R52). -/
def writeBytes : Memory → Nat → List Byte → Memory
  | m, _, [] => m
  | m, a, b :: bs => writeBytes (writeByte m a b) (a + 1) bs

/-- A store by the host. An address outside `0 .. 2^ADDR_W - 1` does not exist (20_memory.md R50) and nothing is
stored there (log 8). -/
def hostStore (addrW : Nat) (m : Memory) (c : Host.Cell) : Memory :=
  if c.1 < 2 ^ addrW then writeByte m c.1 c.2 else m

/-- Stores by the host, in order. -/
def hostStores (addrW : Nat) (m : Memory) (cs : List Host.Cell) : Memory := cs.foldl (hostStore addrW) m

/-- The address lies in the region. -/
def Region.covers (r : Region) (a : Nat) : Bool := decide (r.base ≤ a) && decide (a < r.base + r.size)

/-- The address lies in one of the regions. -/
def regionsCover (rs : List Region) (a : Nat) : Bool := rs.any fun r => r.covers a

/-- Every one of the `n` addresses from `a` lies in one of the regions (20_memory.md R51). -/
def regionsCoverAll (rs : List Region) : Nat → Nat → Bool
  | _, 0 => true
  | a, n + 1 => regionsCover rs a && regionsCoverAll rs (a + 1) n

/-- The address is one of the `n` from `a`. -/
def inRange (a n x : Nat) : Bool := decide (a ≤ x) && decide (x < a + n)

/-- The host wrote one of the `n` bytes from `a` while the command ran (20_memory.md R63). -/
def hostWrote (during : List HostAccess) (a n : Nat) : Bool :=
  during.any fun h => match h with
    | .read _ => false
    | .write x _ => inRange a n x

/-- The host read or wrote one of the `n` bytes from `a` while the command ran (20_memory.md R63). -/
def hostTouched (during : List HostAccess) (a n : Nat) : Bool :=
  during.any fun h => match h with
    | .read x => inRange a n x
    | .write x _ => inRange a n x

/-- The part of the admission test that reads and writes share (20_memory.md R51, R52): the null pointer, and the
end of the address space in unbounded integers (30_encoding.md R81). For `n > 0`. -/
def pointerViolation (s : State) (a n : Nat) : Option Refusal :=
  if a = 0 then some .nullPointer
  else if 2 ^ s.addrW < a + n then some .outOfBoundsPointer
  else none

/-- Why `MemRead(a, n)` is not admitted, if it is not (20_memory.md R51, 60_exceptions.md R209 V1, V2, V5). With
`n = 0` no access is made and any address is accepted. -/
def readViolation (s : State) (a n : Nat) : Option Refusal :=
  if n = 0 then none
  else match pointerViolation s a n with
    | some r => some r
    | none =>
      if !regionsCoverAll s.grant.readable a n then some .outOfBoundsPointer
      else if hostWrote s.grant.during a n then some .bufferTouched
      else none

/-- Why `MemWrite(a, n, _)` of `GENERATE` is not admitted, if it is not (20_memory.md R52, 47_generate.md R198,
60_exceptions.md R209 V1, V2, V3, V5). -/
def writeViolation (s : State) (a n : Nat) : Option Refusal :=
  if n = 0 then none
  else match pointerViolation s a n with
    | some r => some r
    | none =>
      if a % s.genDstAlign ≠ 0 then some .unalignedDestination
      else if !regionsCoverAll s.grant.writable a n then some .outOfBoundsPointer
      else if hostTouched s.grant.during a n then some .bufferTouched
      else none

/-- `MemRead(a, n)` (20_memory.md R51): the bytes, or the reason it is no admitted access. -/
def memRead (s : State) (a n : Nat) : Except Refusal (List Byte) :=
  match readViolation s a n with
  | some r => .error r
  | none => .ok (readBytes s.mem a n)

/-- The state with another data memory. -/
def State.setMem (s : State) (m : Memory) : State := { s with mem := m }

/-- `MemWrite(a, n, v)` (20_memory.md R52): the state with the bytes stored, or the reason it is no admitted access.
The byte string `v` is used only when the access is admitted. -/
def memWrite (s : State) (a n : Nat) (v : List Byte) : Except Refusal State :=
  match writeViolation s a n with
  | some r => .error r
  | none => .ok (s.setMem (writeBytes s.mem a v))

/-- `NCTX` (00_scope.md R9). -/
def State.nctx (s : State) : Nat := s.contexts.length

/-- `F[c]`, `none` if it holds no value (10_state.md R36). -/
def State.context (s : State) (c : Nat) : Option FullState := s.contexts.getD c none

/-- Every register of `F[c]` written (10_state.md R21). -/
def State.setContext (s : State) (c : Nat) (F : FullState) : State :=
  { s with contexts := s.contexts.set c (some F) }

/-- The minimal file written (10_state.md R24). -/
def State.setMin (s : State) (M : MinimalState) : State := { s with min := M }

/-- The working file written (10_state.md R25). -/
def State.setWork (s : State) (W : FullState) : State := { s with work := W }

/-- `respond(status, value)` (00_scope.md R13, 30_encoding.md R76). -/
def State.respond (s : State) (status : Status) (value : BitVec 128) : State :=
  { s with responses := s.responses ++ [⟨status, value⟩] }

/-- `respond(OK, result)` for a u64 result, zero-extended (30_encoding.md R76). -/
def State.respondWord (s : State) (result : Word64) : State := s.respond .ok (result.setWidth 128)

/-- `respond(OK, 0)`, for a command with no result (30_encoding.md R76). -/
def State.respondDone (s : State) : State := s.respond .ok 0

/-- The whole effect of an error report (60_exceptions.md R206, R210, R211): a response with value 0. Nothing is
saved, no mode changes, control goes nowhere, and there is nothing to return from. -/
def State.respondError (s : State) (status : Status) : State := s.respond status 0

/-- The state in which the command of the request is accepted (30_encoding.md R70, 70_reset_and_hazards.md R226): the
host's stores have been made and the grant is in force. -/
def State.accept (s : State) (req : Request) (rest : List Request) : State :=
  { s with mem := hostStores s.addrW s.mem req.stores, grant := req.grant, host := rest }

/-- The host's own writes while the command ran, in order. -/
def hostWrites (during : List HostAccess) : List Host.Cell :=
  during.filterMap fun h => match h with
    | .read _ => none
    | .write a b => some (a, b)

/-- The state after the response (70_reset_and_hazards.md R227): the host's own writes during the command, which a
command that answered did not overlap (20_memory.md R63), have landed, and nothing is granted any more. -/
def State.release (s : State) : State :=
  { s with mem := hostStores s.addrW s.mem (hostWrites s.grant.during), grant := Grant.empty }

end Sys2Proof.Machine
end

