-- ==== Sys2Proof/Machine/Operands.lean ====
section
/-! DEFINITION. Operand binding: the text of a command with `ptr` and `len` (20_memory.md R54), the state operand of a
context command (30_encoding.md R77, 45_streaming_hash.md R165). -/

namespace Sys2Proof.Machine

/-- `text = MemRead(ptr, len)` (20_memory.md R54), addresses in unbounded integers (30_encoding.md R81). -/
def textOperand (s : State) (ptr len : Word64) : Except Refusal (List Byte) := memRead s ptr.toNat len.toNat

/-- A context operand a command reads: the index is below `NCTX`, and the context must hold a value, that is have been
written by `HASH_STATE_INIT` since reset (45_streaming_hash.md R165). 10_state.md R36 states the stop on one that has
not: the model "refuses the three commands on an absent context; it must not return a value" (60_exceptions.md R209 V4). -/
def contextOperand (s : State) (c : Nat) : Except Refusal FullState :=
  match s.context c with
  | none => .error .contextHoldsNoValue
  | some F => .ok F

end Sys2Proof.Machine
end

