-- ==== Sys2Proof/Machine/ByteSum.lean ====
section
/-! DEFINITION. The command `BYTESUM` (46_bytesum.md R191). -/

namespace Sys2Proof.Machine

/-- `BYTESUM ptr, len` (R191). -/
def execByteSum (ptr len : Word64) (s : State) : Host.Outcome State Fault Refusal :=
  match textOperand s ptr len with
  | .error r => .refused r
  | .ok text => .next (s.respondWord (byteSumValue text))

end Sys2Proof.Machine
end

