-- ==== Sys2Proof/Machine/Generate.lean ====
section
/-! DEFINITION. The command `GENERATE` (47_generate.md R196, R198). -/

namespace Sys2Proof.Machine

/-- `GENERATE dst, len, nonce` (R196): "MemWrite(dst, L, stream truncated to its first L bytes)". -/
def execGenerate (dst len nonce : Word64) (s : State) : Host.Outcome State Fault Refusal :=
  match memWrite s dst.toNat len.toNat (generatorBytes nonce len.toNat) with
  | .error r => .refused r
  | .ok t => .next t.respondDone

end Sys2Proof.Machine
end

