-- ==== Sys2Proof/Machine/Hash.lean ====
section
/-! DEFINITION. The command `HASH` (44_single_shot_hash.md R150, R151). -/

namespace Sys2Proof.Machine

/-- The effect of `HASH` on its text: the minimal file up to 64 bytes, the working file above (R151). -/
def hashText (text : List Byte) (seed : Word64) (s : State) : State :=
  if text.length ≤ 64 then
    let M := shortHashFile text seed
    (s.setMin M).respondWord (minFinalize M (BitVec.ofNat 64 text.length))
  else
    let W := longHashFile text seed
    (s.setWork W).respondWord (fullFinalize W)

/-- `HASH ptr, len, seed` (R151). -/
def execHash (ptr len seed : Word64) (s : State) : Host.Outcome State Fault Refusal :=
  match textOperand s ptr len with
  | .error r => .refused r
  | .ok text => .next (hashText text seed s)

end Sys2Proof.Machine
end

