-- ==== Sys2Proof/Machine/Primitive.lean ====
section
/-! DEFINITION. The command `AES_ROUND` (40_aes_round.md R99). -/

namespace Sys2Proof.Machine

/-- `AES_ROUND state, key` (R99): the response is the 128-bit result. -/
def execAesRound (X K : Block128) (s : State) : Host.Outcome State Fault Refusal :=
  .next (s.respond .ok (aesRound X K))

end Sys2Proof.Machine
end

