-- ==== Sys2Proof/Machine/Streaming.lean ====
section
/-! DEFINITION. The four context commands (45_streaming_hash.md). In each the context index is checked against `NCTX`
first (30_encoding.md R77, R78; 60_exceptions.md R208). -/

namespace Sys2Proof.Machine

/-- `HASH_STATE_INIT c<a>, seed` (R166). -/
def execHashStateInit (a : Nat) (seed : Word64) (s : State) : Host.Outcome State Fault Refusal :=
  if s.nctx ≤ a then .next (s.respondError .badContext)
  else .next ((s.setContext a (fullInit seed)).respondDone)

/-- `HASH_STATE_STREAM c<a>, ptr, len` (R167). -/
def execHashStateStream (a : Nat) (ptr len : Word64) (s : State) : Host.Outcome State Fault Refusal :=
  if s.nctx ≤ a then .next (s.respondError .badContext)
  else
    match contextOperand s a with
    | .error r => .refused r
    | .ok F =>
      match textOperand s ptr len with
      | .error r => .refused r
      | .ok text => .next ((s.setContext a (streamText F text)).respondDone)

/-- The effect of a fold of the context value `F` (R168): `W` holds the copy that absorbed a tail, `M` the minimal
file of a short fold; with no tail neither is used. -/
def foldContext (F : FullState) (s : State) : State :=
  if 64 ≤ F.insLength.toNat then
    if 0 < fillLevel F then (s.setWork (fullAbsorb64 F)).respondWord (fullFinalize (fullAbsorb64 F))
    else s.respondWord (fullFinalize F)
  else (s.setMin (foldMinFile F)).respondWord (minFinalize (foldMinFile F) F.insLength)

/-- `HASH_STATE_FOLD c<a>` (R168). -/
def execHashStateFold (a : Nat) (s : State) : Host.Outcome State Fault Refusal :=
  if s.nctx ≤ a then .next (s.respondError .badContext)
  else
    match contextOperand s a with
    | .error r => .refused r
    | .ok F => .next (foldContext F s)

/-- `HASH_STATE_EQUAL c<a>, c<b>` (R169). -/
def execHashStateEqual (a b : Nat) (s : State) : Host.Outcome State Fault Refusal :=
  if s.nctx ≤ a ∨ s.nctx ≤ b then .next (s.respondError .badContext)
  else
    match contextOperand s a with
    | .error r => .refused r
    | .ok F =>
      match contextOperand s b with
      | .error r => .refused r
      | .ok G => .next (s.respond .ok (if contextsMatch F G then 1 else 0))

end Sys2Proof.Machine
end

