-- ==== Sys2Proof/Machine/Dispatch.lean ====
section
/-! DEFINITION. Dispatch: one arm per command (30_encoding.md R74, R78). -/

namespace Sys2Proof.Machine

def exec (i : Instr) (s : State) : Host.Outcome State Fault Refusal :=
  match i with
  | .aesRound X K => Sys2Proof.Machine.execAesRound X K s
  | .byteSum ptr len => Sys2Proof.Machine.execByteSum ptr len s
  | .hash ptr len seed => Sys2Proof.Machine.execHash ptr len seed s
  | .generate dst len nonce => Sys2Proof.Machine.execGenerate dst len nonce s
  | .hashStateInit a seed => Sys2Proof.Machine.execHashStateInit a seed s
  | .hashStateStream a ptr len => Sys2Proof.Machine.execHashStateStream a ptr len s
  | .hashStateFold a => Sys2Proof.Machine.execHashStateFold a s
  | .hashStateEqual a b => Sys2Proof.Machine.execHashStateEqual a b s

end Sys2Proof.Machine
end

