-- ==== Sys2Proof/Machine/Run.lean ====
section
/-! DEFINITION. What a step does around the meaning of a command (30_encoding.md R70, R78): the answer to an illegal
descriptor, what follows a response, and the request that carries a table word. -/

namespace Sys2Proof.Machine

/-- An illegal descriptor: "gets the response `ILLEGAL_COMMAND`, changes no state and makes no memory access"
(30_encoding.md R75). -/
def illegalDescriptor (s : State) : Host.Outcome State Fault Refusal := .next (s.respondError .illegalCommand)

/-- What follows the response of a command: `release`. A refused command has no state after it (R226). -/
def afterResponse : Host.Outcome State Fault Refusal → Host.Outcome State Fault Refusal
  | .next s => .next s.release
  | .fault f => .fault f
  | .refused r => .refused r

/-- The 40 bytes of the number `w`, `W0` in its low bits. -/
def tableDescriptor (nbits w : Nat) : Vector Byte 40 :=
  ⟨⟨leBytes 40 (w % 2 ^ nbits)⟩, by simp [leBytes]⟩

/-- The request that presents the descriptor of a table word and grants nothing. -/
def tableRequest (nbits w : Nat) : Request := ⟨tableDescriptor nbits w, [], Grant.empty⟩

end Sys2Proof.Machine
end

