-- ==== Sys2Proof/Machine/Step.lean ====
section
/-! DEFINITION. One step of the unit: one command, from acceptance to response (30_encoding.md R70, R78,
70_reset_and_hazards.md R225), or the idle unit staying idle (R226). -/

namespace Sys2Proof.Machine

/-- One step. With no command presented the unit is idle and nothing changes (log 1). -/
def step (s : State) : Host.Outcome State Fault Refusal :=
  match s.host with
  | [] => .next s
  | req :: rest =>
    match decode req.descriptor.toList with
    | .error _ => afterResponse (illegalDescriptor (s.accept req rest))
    | .ok i => afterResponse (exec i (s.accept req rest))

/-- The state in which the next command presented is the table word `w` (log 1): the command port is where a step
gets its next instruction (30_encoding.md R70, 20_memory.md R62). -/
def State.withFetchWord (s : State) (nbits w : Nat) : State :=
  { s with host := tableRequest nbits w :: s.host }

end Sys2Proof.Machine
end

