-- ==== Sys2Proof/Machine/Flags.lean ====
section
/-! DEFINITION. The block has no flags, condition codes or status register (10_state.md R28). The one report there is,
the status of a response, has a number (30_encoding.md R77). -/

namespace Sys2Proof.Machine

/-- The 8-bit status code (30_encoding.md R77). -/
def Status.code : Status → BitVec 8
  | .ok => 0
  | .illegalCommand => 1
  | .badContext => 2

end Sys2Proof.Machine
end

