-- ==== Sys2Proof/Safety.lean ====
section
/-! DEFINITION. What a safe run is: the contract of each command (60_exceptions.md R209), the invariant every step
keeps (10_state.md R33), and the words the statements use. -/

namespace Sys2Proof.Safety

open Sys2Proof.Machine

/-- The text of a command with `ptr` and `len`: the bytes data memory holds there (20_memory.md R54). -/
def textAt (s : State) (ptr len : Word64) : List Byte := readBytes s.mem ptr.toNat len.toNat

/-- The host writes no one of the `n` bytes from `a` while the command runs (20_memory.md R63). -/
abbrev NotWrittenByHost (s : State) (a n : Nat) : Prop :=
  ∀ h ∈ s.grant.during, match h with
    | .read _ => True
    | .write x _ => ¬ (a ≤ x ∧ x < a + n)

/-- The host neither reads nor writes one of the `n` bytes from `a` while the command runs (20_memory.md R63). -/
abbrev NotTouchedByHost (s : State) (a n : Nat) : Prop :=
  ∀ h ∈ s.grant.during, match h with
    | .read x => ¬ (a ≤ x ∧ x < a + n)
    | .write x _ => ¬ (a ≤ x ∧ x < a + n)

/-- `MemRead(a, n)` is admitted (20_memory.md R51, 60_exceptions.md R209). -/
abbrev ReadAdmitted (s : State) (a n : Nat) : Prop :=
  n = 0 ∨ (a ≠ 0 ∧ a + n ≤ 2 ^ s.addrW ∧ (∀ k < n, regionsCover s.grant.readable (a + k) = true) ∧
    NotWrittenByHost s a n)

/-- `MemWrite(a, n, _)` of `GENERATE` is admitted (20_memory.md R52, 47_generate.md R198, 60_exceptions.md R209). -/
abbrev WriteAdmitted (s : State) (a n : Nat) : Prop :=
  n = 0 ∨ (a ≠ 0 ∧ a + n ≤ 2 ^ s.addrW ∧ a % s.genDstAlign = 0 ∧
    (∀ k < n, regionsCover s.grant.writable (a + k) = true) ∧ NotTouchedByHost s a n)

/-- The context has been written by `HASH_STATE_INIT` since reset (10_state.md R36). -/
abbrev HoldsValue (s : State) (c : Nat) : Prop := s.context c ≠ none

/-- The contexts a command names, in the order of their fields (30_encoding.md R73). -/
def namedContexts : Instr → List Nat
  | .aesRound _ _ => []
  | .byteSum _ _ => []
  | .hash _ _ _ => []
  | .generate _ _ _ => []
  | .hashStateInit a _ => [a]
  | .hashStateStream a _ _ => [a]
  | .hashStateFold a => [a]
  | .hashStateEqual a b => [a, b]

/-- A context index of the command is out of range (30_encoding.md R77). -/
def BadContext (i : Instr) (s : State) : Prop := ∃ c ∈ namedContexts i, s.nctx ≤ c

/-- The caller keeps the contract of 60_exceptions.md R209 (V1 to V5) for a command whose context indices are in
range. -/
def ContractKept : Instr → State → Prop
  | .aesRound _ _, _ => True
  | .byteSum ptr len, s => ReadAdmitted s ptr.toNat len.toNat
  | .hash ptr len _, s => ReadAdmitted s ptr.toNat len.toNat
  | .generate dst len _, s => WriteAdmitted s dst.toNat len.toNat
  | .hashStateInit _ _, _ => True
  | .hashStateStream a ptr len, s => HoldsValue s a ∧ ReadAdmitted s ptr.toNat len.toNat
  | .hashStateFold a, s => HoldsValue s a
  | .hashStateEqual a b, s => HoldsValue s a ∧ HoldsValue s b

/-- A step that ends in a refusal breaks the contract; a safe step answers a next state. -/
def Answers (o : Host.Outcome State Fault Refusal) : Prop := ∃ t, o = .next t

/-- The register file is what some text streamed after some `HASH_STATE_INIT` makes of it (10_state.md R33, R34). -/
def ReachedByStreaming (F : FullState) : Prop := ∃ (seed : Word64) (text : List Byte), F = streamText (fullInit seed) text

/-- The invariant of the machine: the data memory is in canonical form and lies in the address space, and every
context that holds a value was made by one `HASH_STATE_INIT` and the bytes streamed since. -/
structure StateInv (s : State) : Prop where
  memory_wf : s.mem.wf = true
  memory_in_space : ∀ cell ∈ s.mem, cell.1 < 2 ^ s.addrW
  contexts_reached : ∀ c F, s.context c = some F → ReachedByStreaming F

/-- Two states that agree in everything but the transient files `M` and `W` (10_state.md R26). -/
def SameOffTransient (s t : State) : Prop := t = { s with min := t.min, work := t.work }

/-- Two outcomes that agree up to the transient files. -/
def SameOutcomeOffTransient : Host.Outcome State Fault Refusal → Host.Outcome State Fault Refusal → Prop
  | .next s, .next t => SameOffTransient s t
  | .fault f, .fault g => f = g
  | .refused r, .refused q => r = q
  | _, _ => False

/-- The address is one of the text of the command; a command without a text has none (20_memory.md R54, R58). -/
def inText : Instr → Nat → Bool
  | .aesRound _ _, _ => false
  | .byteSum ptr len, x => inRange ptr.toNat len.toNat x
  | .hash ptr len _, x => inRange ptr.toNat len.toNat x
  | .generate _ _ _, _ => false
  | .hashStateInit _ _, _ => false
  | .hashStateStream _ ptr len, x => inRange ptr.toNat len.toNat x
  | .hashStateFold _, _ => false
  | .hashStateEqual _ _, _ => false

/-- The address is one of the bytes the command stores to: the destination of `GENERATE` (20_memory.md R52). -/
def inDestination : Instr → Nat → Bool
  | .aesRound _ _, _ => false
  | .byteSum _ _, _ => false
  | .hash _ _ _, _ => false
  | .generate dst len _, x => inRange dst.toNat len.toNat x
  | .hashStateInit _ _, _ => false
  | .hashStateStream _ _ _, _ => false
  | .hashStateFold _, _ => false
  | .hashStateEqual _ _, _ => false

/-- The command reads the text at `ptr`, `len`, and, if it names a context, that context holds a value (20_memory.md
R54, 45_streaming_hash.md R165). -/
def ReadsText (s : State) (ptr len : Word64) : Instr → Prop
  | .aesRound _ _ => False
  | .byteSum p n => p = ptr ∧ n = len
  | .hash p n _ => p = ptr ∧ n = len
  | .generate _ _ _ => False
  | .hashStateInit _ _ => False
  | .hashStateStream a p n => HoldsValue s a ∧ p = ptr ∧ n = len
  | .hashStateFold _ => False
  | .hashStateEqual _ _ => False

/-- Two outcomes that agree in everything but the data memory. -/
def SameOutcomeOffMemory : Host.Outcome State Fault Refusal → Host.Outcome State Fault Refusal → Prop
  | .next s, .next t => t = { s with mem := t.mem }
  | .fault f, .fault g => f = g
  | .refused r, .refused q => r = q
  | _, _ => False

/-- The outcome with `F[c]` replaced in its next state. -/
def withContext (c : Nat) (F : FullState) :
    Host.Outcome State Fault Refusal → Host.Outcome State Fault Refusal
  | .next s => .next (s.setContext c F)
  | .fault f => .fault f
  | .refused r => .refused r

/-- The five words of a request's descriptor (30_encoding.md R71). -/
def requestWords (req : Request) : Descriptor := Descriptor.ofBytes req.descriptor.toList

/-- The operands of the command stand in the operand words R73 gives its format; the other words are not looked
at (30_encoding.md R73). -/
def OperandsFrom (d : Descriptor) : Instr → Prop
  | .aesRound X K => X = blockOfHalves d.w1 d.w2 ∧ K = blockOfHalves d.w3 d.w4
  | .byteSum ptr len => ptr = d.w1 ∧ len = d.w2
  | .hash ptr len seed => ptr = d.w1 ∧ len = d.w2 ∧ seed = d.w3
  | .generate dst len nonce => dst = d.w1 ∧ len = d.w2 ∧ nonce = d.w3
  | .hashStateInit _ seed => seed = d.w3
  | .hashStateStream _ ptr len => ptr = d.w1 ∧ len = d.w2
  | .hashStateFold _ => True
  | .hashStateEqual _ _ => True

/-- Commands run one after the other under one grant (30_encoding.md R70: "Commands execute in acceptance order, one
at a time, each atomically"). -/
def runCommands : List Instr → State → Host.Outcome State Fault Refusal
  | [], s => .next s
  | i :: rest, s =>
    match exec i s with
    | .next t => runCommands rest t
    | .fault f => .fault f
    | .refused r => .refused r

/-- The last response delivered, if there is one (30_encoding.md R76). -/
def lastResponse (s : State) : Option Response := s.responses.getLast?

end Sys2Proof.Safety
end

