-- ==== Sys2Proof/Certificates/Slice0/Obligations.lean ====
section
/-! DEFINITION. What is stated about the model. Every statement is about every state, reached or not, unless it says
otherwise; the marks and log entries are those of NOTES.md. -/

open Sys2Proof Sys2Proof.Machine Sys2Proof.Safety

/-! ### Encoding and dispatch (30_encoding.md) -/

/-- Decoding the encoding of a well-formed command gives the command back (30_encoding.md R71 to R74). -/
def Obligations.DecodeOfEncode : Prop :=
  ∀ i : Instr, i.wellFormed = true → decode (encode i) = .ok i

/-- A descriptor decodes to a command exactly when its command word is the command's and the operand words its format
uses hold the operands; every value of an ignored word is accepted and has no effect (30_encoding.md R73). -/
def Obligations.DescriptorCarriesOperands : Prop :=
  ∀ (d : Descriptor) (i : Instr),
    decodeWords d = .ok i ↔ i.wellFormed = true ∧ d.w0 = (encodeWords i).w0 ∧ OperandsFrom d i

/-- The illegal descriptors are those R75 lists; each is answered `ILLEGAL_COMMAND` with value 0, and besides the
host's own stores nothing changes (30_encoding.md R75). -/
def Obligations.IllegalDescriptors : Prop :=
  (∀ d : Descriptor, (∃ e, decodeWords d = .error e) ↔
    opcodeField d.w0 ∉ [0x01, 0x02, 0x03, 0x04, 0x10, 0x11, 0x12, 0x13] ∨ reservedField d.w0 ≠ 0 ∨
    (opcodeField d.w0 ∈ [0x01, 0x02, 0x03, 0x04] ∧ ctxAField d.w0 ≠ 0) ∨
    (opcodeField d.w0 ≠ 0x13 ∧ ctxBField d.w0 ≠ 0)) ∧
  (∀ (s : State) (req : Request) (rest : List Request) (e : Reject),
    s.host = req :: rest → decodeWords (requestWords req) = .error e →
    ∃ t, step s = .next t ∧
      t = { s with
        responses := s.responses ++ [⟨.illegalCommand, 0⟩]
        host := rest
        grant := Grant.empty
        mem := hostStores s.addrW (hostStores s.addrW s.mem req.stores) (hostWrites req.grant.during) })

/-- At most one row of the opcode map matches a command word (30_encoding.md R78, R74). -/
def Obligations.RowsDoNotOverlap : Prop :=
  ∀ (w : Word64), ∀ row ∈ opcodeMap, ∀ row' ∈ opcodeMap,
    row.selectedBy w = true → row'.selectedBy w = true → row = row'

/-- Decode and dispatch (30_encoding.md R78): no row, then a context index out of range, then the command's own rule,
which ends with the response `OK` or is refused. -/
def Obligations.DecodeAndDispatch : Prop :=
  ∀ (s : State) (req : Request) (rest : List Request), s.host = req :: rest →
    ((∀ row ∈ opcodeMap, row.selectedBy (requestWords req).w0 = false) →
      step s = .next ((s.accept req rest).respondError .illegalCommand).release) ∧
    (∀ i, decodeWords (requestWords req) = .ok i → BadContext i s →
      step s = .next ((s.accept req rest).respondError .badContext).release) ∧
    (∀ i, decodeWords (requestWords req) = .ok i → ¬ BadContext i s →
      step s = afterResponse (exec i (s.accept req rest)) ∧
      ((∃ t v, step s = .next t ∧ t.responses = s.responses ++ [⟨.ok, v⟩]) ∨ ∃ r, step s = .refused r))

/-- A step that accepts a command and answers delivers exactly one response; its status is the one R77 gives, its
code one of 0, 1, 2, and a response that is not `OK` has value 0 (30_encoding.md R77, the values R76). -/
def Obligations.StatusOfResponse : Prop :=
  Status.ok.code = 0 ∧ Status.illegalCommand.code = 1 ∧ Status.badContext.code = 2 ∧
  ∀ (s t : State) (req : Request) (rest : List Request), s.host = req :: rest → step s = .next t →
    ∃ r, t.responses = s.responses ++ [r] ∧
      (r.status = .illegalCommand ↔ ∃ e, decodeWords (requestWords req) = .error e) ∧
      (r.status = .badContext ↔ ∃ i, decodeWords (requestWords req) = .ok i ∧ BadContext i s) ∧
      (r.status = .ok ↔ ∃ i, decodeWords (requestWords req) = .ok i ∧ ¬ BadContext i s) ∧
      (r.status ≠ .ok → r.value = 0)

/-- A context index at or above `NCTX` is answered `BAD_CONTEXT` with value 0, whatever the other operands are, and
nothing else changes (60_exceptions.md R206). -/
def Obligations.BadContextAnswered : Prop :=
  ∀ (i : Instr) (s : State), BadContext i s →
    exec i s = .next { s with responses := s.responses ++ [⟨.badContext, 0⟩] }

/-- A step whose request decodes to a command is that command's meaning in the accepted state, followed by the end
of the grant (30_encoding.md R70, R78). -/
def Obligations.StepRunsDecodedCommand : Prop :=
  ∀ (s : State) (req : Request) (rest : List Request) (i : Instr),
    s.host = req :: rest → decode req.descriptor.toList = .ok i →
    step s = afterResponse (exec i (s.accept req rest))

/-- With no command presented the unit is idle and nothing changes. The model's choice (log 1): R226 says the unit
is then idle, and gives no step. -/
def Obligations.IdleUnitStaysIdle : Prop :=
  ∀ s : State, s.host = [] → step s = .next s

/-- Command words written out from the encoding of each family decode to the commands they stand for
(30_encoding.md R72 to R75). -/
def Obligations.WrittenWordsDecode : Prop :=
  decodeWords ⟨0x01, 0x63746f725d53475d, 0x7b5b546573745665, 0x5b477565726f6e5d, 0x4869285368617929⟩ =
    .ok (.aesRound 0x7b5b54657374566563746f725d53475d 0x48692853686179295b477565726f6e5d) ∧
  decodeWords ⟨0x02, 0x2000, 0x96, 7, 8⟩ = .ok (.byteSum 0x2000 150) ∧
  decodeWords ⟨0x03, 0x1000, 0x5, 0x0, 0xFFFF⟩ = .ok (.hash 0x1000 5 0) ∧
  decodeWords ⟨0x04, 0x4000, 0x50, 9, 0⟩ = .ok (.generate 0x4000 80 9) ∧
  decodeWords ⟨0x0110, 0, 0, 0xDEADBEEF, 0⟩ = .ok (.hashStateInit 1 0xDEADBEEF) ∧
  decodeWords ⟨0x0111, 0x2001, 0x3F, 0, 0⟩ = .ok (.hashStateStream 1 0x2001 63) ∧
  decodeWords ⟨0xFF12, 0, 0, 0, 0⟩ = .ok (.hashStateFold 255) ∧
  decodeWords ⟨0x020013, 0, 0, 0, 0⟩ = .ok (.hashStateEqual 0 2) ∧
  decodeWords ⟨0x0, 0, 0, 0, 0⟩ = .error .unassignedOpcode ∧
  decodeWords ⟨0x0103, 0x1000, 5, 0, 0⟩ = .error .unusedContextField ∧
  decodeWords ⟨0x01000012, 0, 0, 0, 0⟩ = .error .reservedBits

/-! ### The AES round (40_aes_round.md) -/

/-- The S-box is the field inverse followed by the affine map with constant `0x63`; it is a bijection with no fixed
point (40_aes_round.md R92). -/
def Obligations.SboxIsAffineInverse : Prop :=
  (∀ a : Byte, ∃ b : Byte, (a = 0 → b = 0) ∧ (a ≠ 0 → gmul a b = 1) ∧
    ∀ i < 8, (sbox a).getLsbD i =
      (b.getLsbD i ^^ b.getLsbD ((i + 4) % 8) ^^ b.getLsbD ((i + 5) % 8) ^^ b.getLsbD ((i + 6) % 8) ^^
        b.getLsbD ((i + 7) % 8) ^^ (0x63 : Byte).getLsbD i)) ∧
  Function.Bijective sbox ∧ ∀ a : Byte, sbox a ≠ a

/-- The sixteen bytes of `aes_round`, column by column, and its corner cases and worked example (40_aes_round.md
R97, with R93 to R96). -/
def Obligations.AesRoundBytes : Prop :=
  (∀ (X K : Block128), ∀ c < 4,
    let a := fun r => sbox (blockByte X (r + 4 * ((c + r) % 4)))
    let k := fun r => blockByte K (4 * c + r)
    blockByte (aesRound X K) (4 * c) = (mul2 (a 0) ^^^ mul3 (a 1) ^^^ a 2 ^^^ a 3) ^^^ k 0 ∧
    blockByte (aesRound X K) (4 * c + 1) = (a 0 ^^^ mul2 (a 1) ^^^ mul3 (a 2) ^^^ a 3) ^^^ k 1 ∧
    blockByte (aesRound X K) (4 * c + 2) = (a 0 ^^^ a 1 ^^^ mul2 (a 2) ^^^ mul3 (a 3)) ^^^ k 2 ∧
    blockByte (aesRound X K) (4 * c + 3) = (mul3 (a 0) ^^^ a 1 ^^^ a 2 ^^^ mul2 (a 3)) ^^^ k 3) ∧
  (∀ (K : Block128), ∀ i < 16, blockByte (aesRound 0 K) i = blockByte K i ^^^ 0x63) ∧
  aesRound 0 0 = 0x63636363636363636363636363636363 ∧
  aesRound
    (blockOfBytes [0x19, 0x3d, 0xe3, 0xbe, 0xa0, 0xf4, 0xe2, 0x2b, 0x9a, 0xc6, 0x8d, 0x2a, 0xe9, 0xf8, 0x48, 0x08])
    (blockOfBytes [0xa0, 0xfa, 0xfe, 0x17, 0x88, 0x54, 0x2c, 0xb1, 0x23, 0xa3, 0x39, 0x39, 0x2a, 0x6c, 0x76, 0x05]) =
    blockOfBytes [0xa4, 0x9c, 0x7f, 0xf2, 0x68, 0x9f, 0x35, 0x2b, 0x6b, 0x5b, 0xea, 0x43, 0x02, 0x6a, 0x50, 0x49]

/-- The laws of R100: linear in the key, a bijection for a fixed key, and each byte depends on one key byte and four
data bytes (40_aes_round.md R100). -/
def Obligations.AesRoundLaws : Prop :=
  (∀ X K : Block128, aesRound X K = aesRound X 0 ^^^ K) ∧
  (∀ K : Block128, Function.Bijective fun X => aesRound X K) ∧
  (∀ (X X' K K' : Block128), ∀ i < 16,
    blockByte K i = blockByte K' i →
    (∀ r < 4, blockByte X (r + 4 * ((i / 4 + r) % 4)) = blockByte X' (r + 4 * ((i / 4 + r) % 4))) →
    blockByte (aesRound X K) i = blockByte (aesRound X' K') i)

/-- `SubBytes` and `ShiftRows` commute (40_aes_round.md R98). -/
def Obligations.SubBytesCommutesWithShiftRows : Prop :=
  ∀ X : Block128, subBytes (shiftRows X) = shiftRows (subBytes X)

/-- `AES_ROUND`: every operand is legal, the response is the 128-bit result, nothing else changes (40_aes_round.md
R99). -/
def Obligations.AesRoundResult : Prop :=
  (∀ d : Descriptor, d.w0 = 0x01 →
    decodeWords d = .ok (.aesRound (blockOfHalves d.w1 d.w2) (blockOfHalves d.w3 d.w4))) ∧
  (∀ (X K : Block128) (s : State), exec (.aesRound X K) s =
    .next { s with responses := s.responses ++ [⟨.ok, aesRound X K⟩] }) ∧
  (∀ X : Block128, X.toNat = (lowHalf X).toNat + 2 ^ 64 * (highHalf X).toNat) ∧
  aesRound (blockOfHalves 0x63746f725d53475d 0x7b5b546573745665) (blockOfHalves 0x5b477565726f6e5d 0x4869285368617929) =
    0xa8311c2f9fdba3c58b104b58ded7e595

/-! ### Block helpers (41_block_primitives.md) -/

/-- `shuffle` moves the byte the table names to each place and is a bijection (41_block_primitives.md R112). -/
def Obligations.ShuffleMovesBytes : Prop :=
  Function.Bijective shuffle ∧
  ∀ (X : Block128), ∀ d < 16, blockByte (shuffle X) d =
    blockByte X ([4, 11, 9, 6, 8, 13, 15, 5, 14, 3, 1, 12, 0, 7, 10, 2].getD d 0)

/-- `add64x2` adds the halves, each modulo 2^64, with no carry between them (41_block_primitives.md R113). -/
def Obligations.LaneAddWrapsPerHalf : Prop :=
  (∀ X Y : Block128,
    (lowHalf (add64x2 X Y)).toNat = ((lowHalf X).toNat + (lowHalf Y).toNat) % 2 ^ 64 ∧
    (highHalf (add64x2 X Y)).toNat = ((highHalf X).toNat + (highHalf Y).toNat) % 2 ^ 64) ∧
  add64x2 (blockOfHalves 0xFFFFFFFFFFFFFFFF 0x8000000000000000) (blockOfHalves 1 0x8000000000000001) =
    blockOfHalves 0 1

/-- `shr_bytes` is the right shift of the 128-bit integer by `8k` bits, byte by byte as R114 gives it
(41_block_primitives.md R114). -/
def Obligations.ShrBytesIsRightShift : Prop :=
  (∀ (X : Block128), ∀ k ≤ 16, shrBytes X k = X >>> (8 * k) ∧
    ∀ i < 16, blockByte (shrBytes X k) i = if i + k ≤ 15 then blockByte X (i + k) else 0x00) ∧
  (∀ X : Block128, shrBytes X 0 = X ∧ shrBytes X 16 = 0) ∧
  shrBytes (blockOfBytes [0x10, 0x11, 0x12, 0x13, 0x14, 0x15, 0x16, 0x17, 0x18, 0x19, 0x1a, 0x1b, 0x1c, 0x1d, 0x1e, 0x1f]) 1 =
    blockOfBytes [0x11, 0x12, 0x13, 0x14, 0x15, 0x16, 0x17, 0x18, 0x19, 0x1a, 0x1b, 0x1c, 0x1d, 0x1e, 0x1f, 0x00] ∧
  shrBytes (blockOfBytes [0x10, 0x11, 0x12, 0x13, 0x14, 0x15, 0x16, 0x17, 0x18, 0x19, 0x1a, 0x1b, 0x1c, 0x1d, 0x1e, 0x1f]) 15 =
    blockOfBytes [0x1f]

/-- The last block of a short input is the zero-filled tail, and the blocks are the lanes of the zero-filled chunk,
`max(1, ceil(N/16))` of them (44_single_shot_hash.md R153). -/
def Obligations.ShortBlocksAreChunkLanes : Prop :=
  (∀ text : List Byte, 16 < text.length → text.length ≤ 64 →
    let n := text.length
    let k := (n + 15) / 16
    let s := 16 * k - n
    s ≤ 15 ∧ shrBytes (loadBlock text (n - 16) 16) s = loadBlock text (16 * (k - 1)) (16 - s)) ∧
  (∀ text : List Byte, text.length ≤ 64 →
    blocks text = (List.range (max 1 ((text.length + 15) / 16))).map (loadChunk text 0 text.length).lane)

/-! ### Micro-operations (42_minimal_state.md, 43_full_state.md) -/

/-- Lane 0 of a freshly initialised full state is the freshly initialised minimal state (42_minimal_state.md R126,
R129). -/
def Obligations.MinimalInitIsLaneZero : Prop :=
  ∀ seed : Word64, minFromFull (fullInit seed) = minInit seed ∧
    (minInit seed).key = blockOfHalves seed seed ∧
    (minInit seed).aes = blockOfHalves (seed ^^^ 0x243F6A8885A308D3) (seed ^^^ 0x13198A2E03707344) ∧
    (minInit seed).sum = blockOfHalves (seed ^^^ 0x9216D5D98979FB1B) (seed ^^^ 0xD1310BA698DFB5AC)

/-- Each lane of `FULL.ABSORB64` is `MIN.ABSORB` of that lane with its block of the staging buffer, and the staging
buffer, the key and the counter are left alone (43_full_state.md R135, R137). -/
def Obligations.FullAbsorbIsFourMinAbsorbs : Prop :=
  ∀ (X : FullState),
    (fullAbsorb64 X).ins = X.ins ∧ (fullAbsorb64 X).key = X.key ∧ (fullAbsorb64 X).insLength = X.insLength ∧
    ∀ i < 4, (⟨(fullAbsorb64 X).aes.lane i, (fullAbsorb64 X).sum.lane i, X.key⟩ : MinimalState) =
      minAbsorb ⟨X.aes.lane i, X.sum.lane i, X.key⟩ (X.ins.lane i)

/-- The two finalizations: `key'`, the mixed block and the low half of the last round (42_minimal_state.md R128,
43_full_state.md R138). `FULL.FINALIZE` does not read the staging buffer. -/
def Obligations.FinalizeFormulas : Prop :=
  (∀ (key' : Block128) (M : MinimalState) (length : Word64),
    (lowHalf key').toNat = ((lowHalf M.key).toNat + length.toNat) % 2 ^ 64 → highHalf key' = highHalf M.key →
    let m := aesRound M.sum M.aes
    (minFinalize M length).toNat = (aesRound (aesRound m key') m).toNat % 2 ^ 64 ∧ (length = 0 → key' = M.key)) ∧
  minFinalize (minAbsorb (minInit 0) (blockOfBytes [0x68, 0x65, 0x6c, 0x6c, 0x6f])) 5 = 0x24A8B11B9B4CF7BA ∧
  (∀ (key' : Block128) (X : FullState),
    (lowHalf key').toNat = ((lowHalf X.key).toNat + X.insLength.toNat) % 2 ^ 64 → highHalf key' = highHalf X.key →
    let m := fun i => aesRound (X.sum.lane i) (X.aes.lane i)
    let mixed := aesRound (aesRound (m 0) (m 1)) (aesRound (m 2) (m 3))
    (fullFinalize X).toNat = (aesRound (aesRound mixed key') mixed).toNat % 2 ^ 64) ∧
  ∀ (X : FullState) (r : Reg512), fullFinalize { X with ins := r } = fullFinalize X

/-! ### The commands on memory -/

/-- `BYTESUM`: the response is the sum of the bytes modulo 2^64, and nothing else changes (46_bytesum.md R192). -/
def Obligations.ByteSumResult : Prop :=
  ∀ (s : State) (ptr len : Word64), ReadAdmitted s ptr.toNat len.toNat →
    exec (.byteSum ptr len) s = .next { s with responses := s.responses ++
      [⟨.ok, BitVec.ofNat 128 (((textAt s ptr len).map BitVec.toNat).sum % 2 ^ 64)⟩] }

/-- `HASH`: the response is the hash of the text, by the minimal regime up to 64 bytes and by the full regime above;
besides the transient file it uses nothing else changes (44_single_shot_hash.md R151). What the file holds
afterwards is not stated. -/
def Obligations.HashResult : Prop :=
  ∀ (s : State) (ptr len seed : Word64), ReadAdmitted s ptr.toNat len.toNat →
    let text := textAt s ptr len
    (len.toNat ≤ 64 → ∃ M, exec (.hash ptr len seed) s = .next { s with
      min := M
      responses := s.responses ++
        [⟨.ok, (minFinalize ((blocks text).foldl minAbsorb (minInit seed)) len).setWidth 128⟩] }) ∧
    (64 < len.toNat → ∃ W, exec (.hash ptr len seed) s = .next { s with
      work := W
      responses := s.responses ++ [⟨.ok, (fullFinalize (longHashFile text seed)).setWidth 128⟩] })

/-- `HASH` of more than 64 bytes absorbs the zero-padded 64-byte chunks of the text in order, `ceil(N/64)` of them
and no more, and finalizes with the length (44_single_shot_hash.md R154). DEDUCED (log 17): that the counter is `N` also
when `N` is a multiple of 64 is an inference R154 marks as its own. -/
def Obligations.LongHashAbsorbsChunks : Prop :=
  ∀ (text : List Byte) (seed : Word64), 64 < text.length → longHashFile text seed =
    { (List.range ((text.length + 63) / 64)).foldl
        (fun W q => fullAbsorb64 { W with ins := loadChunk text (64 * q) (min 64 (text.length - 64 * q)) })
        (fullInit seed) with
      insLength := BitVec.ofNat 64 text.length }

/-- `HASH` is a function of the text and the seed alone, and writes no context (44_single_shot_hash.md R156). -/
def Obligations.HashIsPure : Prop :=
  ∀ (s s' t t' : State) (ptr ptr' len len' seed : Word64),
    exec (.hash ptr len seed) s = .next t → exec (.hash ptr' len' seed) s' = .next t' →
    textAt s ptr len = textAt s' ptr' len' →
    lastResponse t = lastResponse t' ∧ t.contexts = s.contexts ∧ t.mem = s.mem

/-- `GENERATE`: byte `k` of the destination is byte `k mod 16` of `block_(k div 16)`, every other byte of memory is as
before, the response is `OK` with value 0, and nothing else changes (47_generate.md R196). The memory is in
canonical form, which every step keeps (StepKeepsInvariant). -/
def Obligations.GenerateResult : Prop :=
  ∀ (s : State) (dst len nonce : Word64), s.mem.wf = true → WriteAdmitted s dst.toNat len.toNat →
    ∃ m, exec (.generate dst len nonce) s = .next { s with
        mem := m
        responses := s.responses ++ [⟨.ok, 0⟩] } ∧
      (∀ k < len.toNat,
        let i := k / 16
        readByte m (dst.toNat + k) = blockByte
          (aesRound (blockOfHalves (nonce + BitVec.ofNat 64 i) (nonce + BitVec.ofNat 64 i))
            (blockOfHalves (nonce ^^^ piWord (2 * (i % 4))) (nonce ^^^ piWord (2 * (i % 4) + 1)))) (k % 16)) ∧
      (∀ x, ¬ (dst.toNat ≤ x ∧ x < dst.toNat + len.toNat) → readByte m x = readByte s.mem x)

/-- The bytes for a shorter length are the first bytes of those for a longer one (47_generate.md R199). -/
def Obligations.GeneratePrefix : Prop :=
  ∀ (nonce : Word64) (n m : Nat), n ≤ m →
    (generatorBytes nonce n).length = n ∧ generatorBytes nonce n = (generatorBytes nonce m).take n

/-! ### The streaming commands (45_streaming_hash.md) -/

/-- `HASH_STATE_INIT`: every register of the context as R136 gives it, whatever it held; no other context, no memory
and no transient file changes (45_streaming_hash.md R166, 43_full_state.md R136). -/
def Obligations.InitResult : Prop :=
  ∀ (s : State) (a : Nat) (seed : Word64), a < s.nctx →
    ∃ t F, exec (.hashStateInit a seed) s = .next t ∧
      t = { s with
        contexts := t.contexts
        responses := s.responses ++ [⟨.ok, 0⟩] } ∧
      t.nctx = s.nctx ∧ t.context a = some F ∧ (∀ c, c ≠ a → t.context c = s.context c) ∧
      F.key = blockOfHalves seed seed ∧ F.insLength = 0 ∧
      (∀ i < 4, F.aes.lane i = blockOfHalves (seed ^^^ piWord (2 * i)) (seed ^^^ piWord (2 * i + 1)) ∧
        F.sum.lane i = blockOfHalves (seed ^^^ piWord (8 + 2 * i)) (seed ^^^ piWord (8 + 2 * i + 1)) ∧
        F.ins.lane i = 0)

/-- `HASH_STATE_STREAM`: the context after the byte loop of R167 over the text; no other context, no memory and no
transient file changes; the key is never written; the counter grows by `len` (45_streaming_hash.md R167). -/
def Obligations.StreamResult : Prop :=
  ∀ (s : State) (a : Nat) (ptr len : Word64) (F : FullState),
    s.context a = some F → ReadAdmitted s ptr.toNat len.toNat →
    ∃ t G, exec (.hashStateStream a ptr len) s = .next t ∧
      t = { s with
        contexts := t.contexts
        responses := s.responses ++ [⟨.ok, 0⟩] } ∧
      t.nctx = s.nctx ∧ t.context a = some G ∧ (∀ c, c ≠ a → t.context c = s.context c) ∧
      G = (textAt s ptr len).foldl (fun F b =>
        let o := F.insLength.toNat % 64
        let F' := { F with ins := F.ins.setByte o b, insLength := F.insLength + 1 }
        if o = 63 then { fullAbsorb64 F' with ins := ⟨0, 0, 0, 0⟩ } else F') F ∧
      G.key = F.key ∧ G.insLength = F.insLength + len ∧ (len = 0 → G = F)

/-- What a context holds after one `HASH_STATE_INIT` and any bytes streamed since, while the counter has not
wrapped: the key, the counter, the staged tail with zeros above it, and the chains after one absorption for each
completed chunk (10_state.md R33). -/
def Obligations.ContextContents : Prop :=
  ∀ (seed : Word64) (text : List Byte), text.length < 2 ^ 64 →
    let F := streamText (fullInit seed) text
    let n := text.length
    let W := (List.range (n / 64)).foldl
      (fun W q => fullAbsorb64 { W with ins := loadChunk text (64 * q) 64 }) (fullInit seed)
    F.key = blockOfHalves seed seed ∧ F.insLength.toNat = n ∧
    (∀ j < 64, F.ins.byte j = if j < n % 64 then text.getD (n - n % 64 + j) 0 else 0) ∧
    F.aes = W.aes ∧ F.sum = W.sum

/-- Streaming a text in two pieces, from any buffers and in any memories, leaves the context exactly as streaming it
in one (45_streaming_hash.md R173). -/
def Obligations.StreamSplitting : Prop :=
  ∀ (s s' s'' t t' t'' : State) (a : Nat) (ptr len ptr' len' ptr'' len'' : Word64),
    a < s.nctx → a < s'.nctx → a < s''.nctx →
    exec (.hashStateStream a ptr len) s = .next t →
    exec (.hashStateStream a ptr' len') s' = .next t' →
    exec (.hashStateStream a ptr'' len'') s'' = .next t'' →
    s'.context a = t.context a → s''.context a = s.context a →
    textAt s'' ptr'' len'' = textAt s ptr len ++ textAt s' ptr' len' →
    t'.context a = t''.context a

/-- `ins_length` counts the streamed bytes modulo 2^64, and the fill level stays right past a wrap
(45_streaming_hash.md R174). -/
def Obligations.StreamedLengthWraps : Prop :=
  ∀ (F : FullState) (text : List Byte),
    (streamText F text).insLength.toNat = (F.insLength.toNat + text.length) % 2 ^ 64 ∧
    fillLevel (streamText F text) = (fillLevel F + text.length) % 64

/-- `HASH_STATE_FOLD`: the value of the branch the counter selects; no context, no memory changes, and only the
transient file the branch uses (45_streaming_hash.md R168). What the file holds afterwards is not stated. -/
def Obligations.FoldResult : Prop :=
  ∀ (s : State) (a : Nat) (F : FullState), s.context a = some F →
    let L := F.insLength.toNat
    (64 ≤ L → 0 < L % 64 → ∃ W, exec (.hashStateFold a) s = .next { s with
      work := W
      responses := s.responses ++ [⟨.ok, (fullFinalize (fullAbsorb64 F)).setWidth 128⟩] }) ∧
    (64 ≤ L → L % 64 = 0 → exec (.hashStateFold a) s = .next { s with
      responses := s.responses ++ [⟨.ok, (fullFinalize F).setWidth 128⟩] }) ∧
    (L < 64 → ∃ M, exec (.hashStateFold a) s = .next { s with
      min := M
      responses := s.responses ++ [⟨.ok, (minFinalize
        ((blocks (F.ins.bytes.take L)).foldl minAbsorb ⟨F.aes.lane0, F.sum.lane0, F.key⟩) F.insLength).setWidth 128⟩] })

/-- In a context made by `HASH_STATE_INIT` and streaming, a short fold absorbs the lanes of the staging buffer as
they stand (45_streaming_hash.md R168, 10_state.md R33 b). -/
def Obligations.ShortFoldAbsorbsStagingLanes : Prop :=
  ∀ F : FullState, ReachedByStreaming F → F.insLength.toNat < 64 →
    blocks (F.ins.bytes.take F.insLength.toNat) =
      (List.range (max 1 ((F.insLength.toNat + 15) / 16))).map F.ins.lane

/-- A fold leaves every context bit for bit as it was, so folding again gives the same response, and streaming after
a fold does what streaming without it does (45_streaming_hash.md R172). -/
def Obligations.StreamAfterFold : Prop :=
  ∀ (s t : State) (a : Nat), exec (.hashStateFold a) s = .next t →
    t.contexts = s.contexts ∧
    (∃ u, exec (.hashStateFold a) t = .next u ∧ lastResponse u = lastResponse t ∧ u.contexts = s.contexts) ∧
    (∀ (ptr len : Word64) (v : State), exec (.hashStateStream a ptr len) s = .next v →
      ∃ u, exec (.hashStateStream a ptr len) t = .next u ∧ u.contexts = v.contexts)

/-- `HASH_STATE_EQUAL`: 1 exactly when `key`, `aes` and `sum` of the two contexts agree, whatever `ins` and
`ins_length` hold; nothing changes (45_streaming_hash.md R169). -/
def Obligations.EqualResult : Prop :=
  (∀ (s : State) (a b : Nat) (F G : FullState), s.context a = some F → s.context b = some G →
    ∃ v, exec (.hashStateEqual a b) s = .next { s with responses := s.responses ++ [⟨.ok, v⟩] } ∧
      (v = 1 ∨ v = 0) ∧
      (v = 1 ↔ F.key = G.key ∧ ∀ i < 4, F.aes.lane i = G.aes.lane i ∧ F.sum.lane i = G.sum.lane i) ∧
      (a = b → v = 1)) ∧
  (∀ (F : FullState) (r : Reg512) (n : Word64), contextsMatch F { F with ins := r, insLength := n } = true) ∧
  contextsMatch (fullInit 5) (fullInit 6) = false

/-- The streaming law: for every text whose length is not 64 and every way of cutting it into pieces,
`HASH_STATE_INIT`, a `HASH_STATE_STREAM` for each piece and `HASH_STATE_FOLD` answer what `HASH` answers
(45_streaming_hash.md R170). -/
def Obligations.StreamingFoldEqualsHash : Prop :=
  ∀ (s : State) (a : Nat) (seed ptr len : Word64) (pieces : List (Word64 × Word64)),
    a < s.nctx → ReadAdmitted s ptr.toNat len.toNat → len.toNat ≠ 64 →
    (∀ p ∈ pieces, ReadAdmitted s p.1.toNat p.2.toNat) →
    (pieces.map fun p => textAt s p.1 p.2).flatten = textAt s ptr len →
    ∃ t u, exec (.hash ptr len seed) s = .next u ∧
      runCommands (.hashStateInit a seed :: pieces.map (fun p => .hashStateStream a p.1 p.2) ++ [.hashStateFold a]) s =
        .next t ∧
      lastResponse t = lastResponse u

/-- The exception at total length 64: however the 64 bytes are cut, the fold has absorbed one chunk over four lanes and
finalizes the full state with a zero staging buffer, while `HASH` absorbs four blocks into one chain; for 64 zero bytes
and seed 0 the two responses differ (45_streaming_hash.md R171). -/
def Obligations.ExceptionAtLength64 : Prop :=
  ∀ (s : State) (a : Nat) (seed ptr len : Word64) (pieces : List (Word64 × Word64)),
    a < s.nctx → ReadAdmitted s ptr.toNat len.toNat → len.toNat = 64 →
    (∀ p ∈ pieces, ReadAdmitted s p.1.toNat p.2.toNat) →
    (pieces.map fun p => textAt s p.1 p.2).flatten = textAt s ptr len →
    let text := textAt s ptr len
    ∃ t u F, exec (.hash ptr len seed) s = .next u ∧
      lastResponse u = some ⟨.ok, (minFinalize ((blocks text).foldl minAbsorb (minInit seed)) 64).setWidth 128⟩ ∧
      runCommands (.hashStateInit a seed :: pieces.map (fun p => .hashStateStream a p.1 p.2) ++ [.hashStateFold a]) s =
        .next t ∧
      lastResponse t = some ⟨.ok, (fullFinalize
        { fullAbsorb64 { fullInit seed with ins := loadChunk text 0 64 } with insLength := 64 }).setWidth 128⟩ ∧
      t.context a = some F ∧ F.ins = Reg512.zero ∧ F.insLength = 64 ∧
      (seed = 0 → text = List.replicate 64 0 →
        lastResponse u = some ⟨.ok, 0xF4734D788A645D8C⟩ ∧ lastResponse t = some ⟨.ok, 0xC35B18E505A11E5C⟩)

/-! ### The contract (60_exceptions.md R209) -/

/-- A command answers exactly when a context index is out of range or the caller keeps the contract; otherwise it is
refused as one of the violations V1 to V5, and no step faults (60_exceptions.md R205, R209). -/
def Obligations.AnswersExactlyWhenContractKept : Prop :=
  ∀ (i : Instr) (s : State),
    (Answers (exec i s) ↔ BadContext i s ∨ ContractKept i s) ∧
    (¬ (BadContext i s ∨ ContractKept i s) →
      exec i s ∈ ([.refused .outOfBoundsPointer, .refused .nullPointer, .refused .unalignedDestination,
        .refused .contextHoldsNoValue, .refused .bufferTouched] : List (Host.Outcome State Fault Refusal)))

/-- Each violation of R209 on a buffer is refused under its own name, in the order the model tests them: for `BYTESUM`,
`HASH`, `HASH_STATE_STREAM` of a context that holds a value, and `GENERATE`. The order and the names are the model's
choice (log 7). -/
def Obligations.ViolationsAreNamed : Prop :=
  ∀ (s : State) (ptr len : Word64), len ≠ 0 →
    (∀ i, ReadsText s ptr len i →
      (ptr = 0 → exec i s = .refused .nullPointer) ∧
      (ptr ≠ 0 → 2 ^ s.addrW < ptr.toNat + len.toNat → exec i s = .refused .outOfBoundsPointer) ∧
      (ptr ≠ 0 → ptr.toNat + len.toNat ≤ 2 ^ s.addrW →
        ((∃ k < len.toNat, regionsCover s.grant.readable (ptr.toNat + k) = false) →
          exec i s = .refused .outOfBoundsPointer) ∧
        ((∀ k < len.toNat, regionsCover s.grant.readable (ptr.toNat + k) = true) →
          ¬ NotWrittenByHost s ptr.toNat len.toNat → exec i s = .refused .bufferTouched))) ∧
    (∀ nonce : Word64,
      (ptr = 0 → exec (.generate ptr len nonce) s = .refused .nullPointer) ∧
      (ptr ≠ 0 → 2 ^ s.addrW < ptr.toNat + len.toNat →
        exec (.generate ptr len nonce) s = .refused .outOfBoundsPointer) ∧
      (ptr ≠ 0 → ptr.toNat + len.toNat ≤ 2 ^ s.addrW →
        (ptr.toNat % s.genDstAlign ≠ 0 → exec (.generate ptr len nonce) s = .refused .unalignedDestination) ∧
        (ptr.toNat % s.genDstAlign = 0 →
          ((∃ k < len.toNat, regionsCover s.grant.writable (ptr.toNat + k) = false) →
            exec (.generate ptr len nonce) s = .refused .outOfBoundsPointer) ∧
          ((∀ k < len.toNat, regionsCover s.grant.writable (ptr.toNat + k) = true) →
            ¬ NotTouchedByHost s ptr.toNat len.toNat →
            exec (.generate ptr len nonce) s = .refused .bufferTouched))))

/-- A command that reads a context which no `HASH_STATE_INIT` has written since reset is refused, whatever its other
operands are (10_state.md R36, 45_streaming_hash.md R165). The model's choice (log 7): 60_exceptions.md R208 gives the
contract checks one rank, so that this name is given also where a buffer violates the contract too. -/
def Obligations.AbsentContextRefused : Prop :=
  ∀ (s : State) (a : Nat), a < s.nctx → s.context a = none →
    exec (.hashStateFold a) s = .refused .contextHoldsNoValue ∧
    (∀ ptr len : Word64, exec (.hashStateStream a ptr len) s = .refused .contextHoldsNoValue) ∧
    (∀ b, b < s.nctx → exec (.hashStateEqual a b) s = .refused .contextHoldsNoValue ∧
      exec (.hashStateEqual b a) s = .refused .contextHoldsNoValue)

/-! ### The whole machine -/

/-- Every step keeps the invariant: the memory stays in canonical form and in the address space, and every context
that holds a value was made by one `HASH_STATE_INIT` and the bytes streamed since (10_state.md R33, R34;
20_memory.md R50). -/
def Obligations.StepKeepsInvariant : Prop :=
  ∀ s t : State, StateInv s → step s = .next t → StateInv t

/-- The invariant holds after reset, whatever the launch parameters. -/
def Obligations.ResetSatisfiesInvariant : Prop :=
  ∀ c : Config, StateInv (State.resetOf c)

/-- After reset there are `NCTX` contexts and none holds a value, no command is in progress and no response pending,
and the parameters are those of the launch (10_state.md R35, 70_reset_and_hazards.md R220, 00_scope.md R9). That no
command is presented yet is the model's choice (log 1). -/
def Obligations.ResetHoldsNoContext : Prop :=
  (∀ c : Config, (State.resetOf c).nctx = c.nctx ∧ (∀ k, (State.resetOf c).context k = none) ∧
    (State.resetOf c).responses = [] ∧ (State.resetOf c).host = [] ∧ (State.resetOf c).addrW = c.addrW ∧
    (State.resetOf c).genDstAlign = c.genDstAlign) ∧
  State.reset.nctx = 2 ∧ State.reset.addrW = 64 ∧ State.reset.genDstAlign = 64

/-- The lifecycle of a context: `HASH_STATE_INIT` and `HASH_STATE_STREAM` of that context are the only commands that
write it, and `HASH_STATE_STREAM` only one that holds a value; no context ever loses its value (10_state.md R34,
R37). -/
def Obligations.OnlyInitAndStreamWriteContexts : Prop :=
  ∀ (i : Instr) (s t : State), exec i s = .next t → ∀ c,
    (t.context c ≠ s.context c →
      (∃ seed, i = .hashStateInit c seed) ∨ (HoldsValue s c ∧ ∃ ptr len, i = .hashStateStream c ptr len)) ∧
    (HoldsValue s c → HoldsValue t c)

/-- Every byte of memory is as before except the bytes a `GENERATE` stores (20_memory.md R50, R52). -/
def Obligations.OnlyGenerateWritesMemory : Prop :=
  ∀ (i : Instr) (s t : State), exec i s = .next t → ∀ x,
    readByte t.mem x ≠ readByte s.mem x →
      ∃ dst len nonce, i = .generate dst len nonce ∧ dst.toNat ≤ x ∧ x < dst.toNat + len.toNat

/-- A command reads no byte of memory outside its text, and `GENERATE` reads none. Run with other bytes there, it answers
or is refused alike and leaves the same state but for the memory; in memories in canonical form it stores the same
bytes at its destination and leaves every other byte as it was in each (20_memory.md R58, R52). -/
def Obligations.ReadsStayInText : Prop :=
  ∀ (i : Instr) (s : State) (m : Memory), (∀ x, inText i x = true → readByte m x = readByte s.mem x) →
    SameOutcomeOffMemory (exec i s) (exec i { s with mem := m }) ∧
    (s.mem.wf = true → m.wf = true → ∀ t u, exec i s = .next t → exec i { s with mem := m } = .next u → ∀ x,
      if inDestination i x then readByte t.mem x = readByte u.mem x
      else readByte t.mem x = readByte s.mem x ∧ readByte u.mem x = readByte m x)

/-- No command changes the launch parameters, the grant, the commands still to be presented or an earlier response,
and each that answers delivers exactly one response (00_scope.md R9, 30_encoding.md R70, R76). -/
def Obligations.CommandsKeepParametersAndPorts : Prop :=
  ∀ (i : Instr) (s t : State), exec i s = .next t →
    t.addrW = s.addrW ∧ t.genDstAlign = s.genDstAlign ∧ t.nctx = s.nctx ∧ t.grant = s.grant ∧ t.host = s.host ∧
    ∃ r, t.responses = s.responses ++ [r]

/-- Contexts share nothing: a command that does not name context `c` does the same whatever `F[c]` holds, and leaves
`F[c]` as it is (10_state.md R21, 70_reset_and_hazards.md R224). -/
def Obligations.ContextsShareNothing : Prop :=
  ∀ (i : Instr) (s : State) (c : Nat) (G : FullState), c ∉ namedContexts i →
    exec i (s.setContext c G) = withContext c G (exec i s)

/-- The transient files are unobservable: two machines that differ only in what `M` and `W` hold give, for any number
of steps, the same responses, memory, contexts and refusals (10_state.md R26). -/
def Obligations.TransientFilesUnobservable : Prop :=
  ∀ (k : Nat) (s s' : State), SameOffTransient s s' →
    SameOutcomeOffTransient (Sys2Proof.core.run k s) (Sys2Proof.core.run k s')

/-- A run that is not refused takes the commands off the port in order, the first `k` of them in `k` steps, and adds one
response for each (70_reset_and_hazards.md R226, 30_encoding.md R70). The model's choice (log 1): a step past the last
command is an idle step and adds none; R226 says the unit is then idle, and gives no step. -/
def Obligations.RunAnswersInOrder : Prop :=
  ∀ (k : Nat) (s t : State), Sys2Proof.core.run k s = .next t →
    t.host = s.host.drop k ∧
    ∃ rs, t.responses = s.responses ++ rs ∧ rs.length = min k s.host.length
end

