-- ==== Sys2Proof/Laws/Bytes.lean ====
section
/-! SUPPORT. Byte strings and numbers: the two directions of the little-endian layout, and the bytes of a block. -/

namespace Sys2Proof.Machine

@[simp] theorem leBytes_length (n x : Nat) : (leBytes n x).length = n := by
  induction n generalizing x with
  | zero => rfl
  | succ n ih => simp [leBytes, ih]

@[simp] theorem bytesOfWord64_length (w : Word64) : (bytesOfWord64 w).length = 8 := leBytes_length 8 _

theorem leNat_append (bs cs : List Byte) : leNat (bs ++ cs) = leNat bs + 256 ^ bs.length * leNat cs := by
  induction bs with
  | nil => simp [leNat]
  | cons b bs ih =>
    simp only [List.cons_append, leNat, ih, List.length_cons, Nat.pow_succ']
    rw [Nat.mul_add, Nat.mul_assoc, Nat.add_assoc]

theorem leNat_lt (bs : List Byte) : leNat bs < 256 ^ bs.length := by
  induction bs with
  | nil => simp [leNat]
  | cons b bs ih =>
    have hb : b.toNat < 256 := b.isLt
    simp only [leNat, List.length_cons, Nat.pow_succ']
    omega

/-- Reading back the low bytes of a number gives the number modulo `256^n`. -/
theorem leNat_leBytes (n x : Nat) : leNat (leBytes n x) = x % 256 ^ n := by
  induction n generalizing x with
  | zero => simp [leBytes, leNat, Nat.mod_one]
  | succ n ih =>
    have h8 : (2 : Nat) ^ 8 = 256 := by norm_num
    rw [leBytes, leNat, ih, BitVec.toNat_ofNat, h8, Nat.pow_succ', Nat.mod_mul]

/-- The low bytes of the number a byte string denotes are the byte string. -/
theorem leBytes_leNat (bs : List Byte) : leBytes bs.length (leNat bs) = bs := by
  induction bs with
  | nil => rfl
  | cons b bs ih =>
    have hb : b.toNat < 256 := b.isLt
    have hdiv : (b.toNat + 256 * leNat bs) / 256 = leNat bs := by omega
    have hlow : BitVec.ofNat 8 (b.toNat + 256 * leNat bs) = b := by
      apply BitVec.eq_of_toNat_eq
      simp only [BitVec.toNat_ofNat]
      omega
    simp [leBytes, leNat, hdiv, hlow, ih]

/-- Bits of the number a byte string denotes. -/
theorem testBit_leNat (bs : List Byte) (i : Nat) : (leNat bs).testBit i = (bs.getD (i / 8) 0).getLsbD (i % 8) := by
  induction bs generalizing i with
  | nil => simp [leNat]
  | cons b bs ih =>
    have hb : b.toNat < 2 ^ 8 := b.isLt
    have hsum : leNat (b :: bs) = 2 ^ 8 * leNat bs + b.toNat := by simp [leNat]; omega
    rw [hsum, Nat.testBit_two_pow_mul_add _ hb]
    by_cases h : i < 8
    · have h0 : i / 8 = 0 := by omega
      have h1 : i % 8 = i := by omega
      simp [h, h0, h1, BitVec.getLsbD]
    · have h1 : i / 8 = (i - 8) / 8 + 1 := by omega
      have h2 : i % 8 = (i - 8) % 8 := by omega
      simp [h, ih, h1, h2]

@[simp] theorem bytesOfBlock_length (X : Block128) : (bytesOfBlock X).length = 16 := by simp [bytesOfBlock]

theorem getLsbD_blockByte (X : Block128) (i k : Nat) (hk : k < 8) :
    (blockByte X i).getLsbD k = X.getLsbD (8 * i + k) := by
  simp [blockByte, hk]

/-- Byte `i` of the block made of a byte string is the string's byte `i`, zero past its end. -/
theorem blockByte_blockOfBytes (bs : List Byte) (i : Nat) (hi : i < 16) :
    blockByte (blockOfBytes bs) i = bs.getD i 0 := by
  apply BitVec.eq_of_getLsbD_eq
  intro k hk
  have h1 : (8 * i + k) / 8 = i := by omega
  have h2 : (8 * i + k) % 8 = k := by omega
  have h3 : 8 * i + k < 128 := by omega
  rw [getLsbD_blockByte _ _ _ hk, blockOfBytes, BitVec.getLsbD_ofNat, testBit_leNat, h1, h2]
  simp [h3]

/-- Two blocks with the same sixteen bytes are equal. -/
theorem block_ext {X Y : Block128} (h : ∀ i < 16, blockByte X i = blockByte Y i) : X = Y := by
  apply BitVec.eq_of_getLsbD_eq
  intro j hj
  have hk : j % 8 < 8 := Nat.mod_lt _ (by omega)
  have hb := congrArg (fun b : Byte => b.getLsbD (j % 8)) (h (j / 8) (by omega))
  simp only [getLsbD_blockByte _ _ _ hk] at hb
  have h1 : 8 * (j / 8) + j % 8 = j := by omega
  rwa [h1] at hb

/-- Taking a block apart and putting it together again. -/
@[simp] theorem blockOfBytes_bytesOfBlock (X : Block128) : blockOfBytes (bytesOfBlock X) = X := by
  apply block_ext
  intro i hi
  rw [blockByte_blockOfBytes _ _ hi]
  simp [bytesOfBlock, hi]

/-- A byte of the exclusive or of two blocks (40_aes_round.md R96). -/
theorem blockByte_xor (X Y : Block128) (i : Nat) : blockByte (X ^^^ Y) i = blockByte X i ^^^ blockByte Y i := by
  apply BitVec.eq_of_getLsbD_eq
  intro k hk
  simp [blockByte, hk]

/-- Byte `i` after byte `j` is replaced (10_state.md R23). -/
theorem blockByte_setBlockByte (X : Block128) (i j : Nat) (b : Byte) (hi : i < 16) :
    blockByte (setBlockByte X j b) i = if i = j then b else blockByte X i := by
  rw [setBlockByte, blockByte_blockOfBytes _ _ hi]
  by_cases h : i = j
  · subst h; simp [hi]
  · rw [List.getD_eq_getElem?_getD, List.getElem?_set_ne (Ne.symm h), if_neg h]
    simp [bytesOfBlock, hi]

/-- A word read back from its bytes. -/
@[simp] theorem word64OfBytes_bytesOfWord64 (w : Word64) : word64OfBytes (bytesOfWord64 w) = w := by
  apply BitVec.eq_of_toNat_eq
  have h : w.toNat < 2 ^ 64 := w.isLt
  simp only [word64OfBytes, bytesOfWord64, leNat_leBytes, BitVec.toNat_ofNat]
  norm_num
  omega

end Sys2Proof.Machine

namespace Sys2Proof

theorem toNat_blockOfHalves (a b : Word64) : (blockOfHalves a b).toNat = a.toNat + 2 ^ 64 * b.toNat := by
  have ha : a.toNat < 2 ^ 64 := a.isLt
  have hb : b.toNat < 2 ^ 64 := b.isLt
  rw [blockOfHalves, BitVec.toNat_ofNat, Nat.mod_eq_of_lt]
  omega

theorem toNat_lowHalf (X : Block128) : (lowHalf X).toNat = X.toNat % 2 ^ 64 := by
  simp [lowHalf, BitVec.extractLsb'_toNat]

theorem toNat_highHalf (X : Block128) : (highHalf X).toNat = X.toNat / 2 ^ 64 := by
  have hX : X.toNat < 2 ^ 128 := X.isLt
  rw [highHalf, BitVec.extractLsb'_toNat, Nat.shiftRight_eq_div_pow, Nat.mod_eq_of_lt]
  omega

@[simp] theorem lowHalf_blockOfHalves (a b : Word64) : lowHalf (blockOfHalves a b) = a := by
  have ha : a.toNat < 2 ^ 64 := a.isLt
  apply BitVec.eq_of_toNat_eq
  rw [toNat_lowHalf, toNat_blockOfHalves]
  omega

@[simp] theorem highHalf_blockOfHalves (a b : Word64) : highHalf (blockOfHalves a b) = b := by
  have ha : a.toNat < 2 ^ 64 := a.isLt
  apply BitVec.eq_of_toNat_eq
  rw [toNat_highHalf, toNat_blockOfHalves]
  omega

/-- A block is its two halves (00_scope.md R11). -/
@[simp] theorem blockOfHalves_halves (X : Block128) : blockOfHalves (lowHalf X) (highHalf X) = X := by
  apply BitVec.eq_of_toNat_eq
  rw [toNat_blockOfHalves, toNat_lowHalf, toNat_highHalf]
  omega

end Sys2Proof
end

