-- ==== Sys2Proof/Laws/Decode.lean ====
section
/-! SUPPORT. The fields of a command word, and which row of the opcode map a command word selects. -/

namespace Sys2Proof

/-- A command word is its four fields (30_encoding.md R72). -/
theorem commandWord_ext {v w : Word64} : v = w ↔
    opcodeField v = opcodeField w ∧ ctxAField v = ctxAField w ∧ ctxBField v = ctxBField w ∧
      reservedField v = reservedField w := by
  constructor
  · rintro rfl; exact ⟨rfl, rfl, rfl, rfl⟩
  · rintro ⟨h0, h1, h2, h3⟩
    have hv : v.toNat < 2 ^ 64 := v.isLt
    have hw : w.toNat < 2 ^ 64 := w.isLt
    have g0 := congrArg BitVec.toNat h0
    have g1 := congrArg BitVec.toNat h1
    have g2 := congrArg BitVec.toNat h2
    have g3 := congrArg BitVec.toNat h3
    simp only [opcodeField, ctxAField, ctxBField, reservedField, BitVec.extractLsb'_toNat,
      Nat.shiftRight_eq_div_pow] at g0 g1 g2 g3
    apply BitVec.eq_of_toNat_eq
    omega

theorem field_and (v w : Word64) (k n : Nat) :
    (v &&& w).extractLsb' k n = v.extractLsb' k n &&& w.extractLsb' k n := by
  apply BitVec.eq_of_getLsbD_eq
  intro i hi
  simp [hi]

/-- A row is selected exactly when each masked field has the row's value (30_encoding.md R74). -/
theorem selectedBy_iff (row : OpcodeRow) (w : Word64) : row.selectedBy w = true ↔
    opcodeField w &&& opcodeField row.mask = opcodeField row.pattern ∧
    ctxAField w &&& ctxAField row.mask = ctxAField row.pattern ∧
    ctxBField w &&& ctxBField row.mask = ctxBField row.pattern ∧
    reservedField w &&& reservedField row.mask = reservedField row.pattern := by
  unfold OpcodeRow.selectedBy
  rw [beq_iff_eq, commandWord_ext]
  simp only [opcodeField, ctxAField, ctxBField, reservedField, field_and]

theorem and_ones8 (x : BitVec 8) : x &&& 0xFF = x := BitVec.and_allOnes

theorem and_ones40 (x : BitVec 40) : x &&& 0xFFFFFFFFFF = x := BitVec.and_allOnes

/-- A row that uses no context field (30_encoding.md R74, R75). -/
theorem selectedBy_no_context (op : Opcode) (p w : Word64) :
    OpcodeRow.selectedBy ⟨op, 0xFFFFFFFFFFFFFFFF, p⟩ w = true ↔ w = p := by
  simp only [OpcodeRow.selectedBy, beq_iff_eq]
  rw [show w &&& 0xFFFFFFFFFFFFFFFF = w from BitVec.and_allOnes]

/-- A row that uses `ctx_a` alone (30_encoding.md R74, R75). -/
theorem selectedBy_context_a (op : Opcode) (p w : Word64) (hp : ctxAField p = 0) :
    OpcodeRow.selectedBy ⟨op, 0xFFFFFFFFFFFF00FF, p⟩ w = true ↔
      opcodeField w = opcodeField p ∧ ctxBField w = ctxBField p ∧ reservedField w = reservedField p := by
  rw [selectedBy_iff]
  have h0 : opcodeField 0xFFFFFFFFFFFF00FF = 0xFF := by decide
  have h1 : ctxAField 0xFFFFFFFFFFFF00FF = 0 := by decide
  have h2 : ctxBField 0xFFFFFFFFFFFF00FF = 0xFF := by decide
  have h3 : reservedField 0xFFFFFFFFFFFF00FF = 0xFFFFFFFFFF := by decide
  simp only [h0, h1, h2, h3, and_ones8, and_ones40, hp]
  simp

/-- A row that uses both context fields (30_encoding.md R74, R75). -/
theorem selectedBy_contexts (op : Opcode) (p w : Word64) (ha : ctxAField p = 0) (hb : ctxBField p = 0) :
    OpcodeRow.selectedBy ⟨op, 0xFFFFFFFFFF0000FF, p⟩ w = true ↔
      opcodeField w = opcodeField p ∧ reservedField w = reservedField p := by
  rw [selectedBy_iff]
  have h0 : opcodeField 0xFFFFFFFFFF0000FF = 0xFF := by decide
  have h1 : ctxAField 0xFFFFFFFFFF0000FF = 0 := by decide
  have h2 : ctxBField 0xFFFFFFFFFF0000FF = 0 := by decide
  have h3 : reservedField 0xFFFFFFFFFF0000FF = 0xFFFFFFFFFF := by decide
  simp only [h0, h1, h2, h3, and_ones8, and_ones40, ha, hb]
  simp

theorem toNat_commandWord (op : Opcode) (a b : Nat) :
    (commandWord op a b).toNat = op.code.toNat + 2 ^ 8 * (a % 2 ^ 8) + 2 ^ 16 * (b % 2 ^ 8) := by
  have h : op.code.toNat < 2 ^ 8 := op.code.isLt
  rw [commandWord, BitVec.toNat_ofNat]
  omega

@[simp] theorem opcodeField_commandWord (op : Opcode) (a b : Nat) : opcodeField (commandWord op a b) = op.code := by
  have h : op.code.toNat < 2 ^ 8 := op.code.isLt
  apply BitVec.eq_of_toNat_eq
  rw [opcodeField, BitVec.extractLsb'_toNat, toNat_commandWord, Nat.shiftRight_eq_div_pow]
  omega

@[simp] theorem ctxAField_commandWord (op : Opcode) (a b : Nat) :
    ctxAField (commandWord op a b) = BitVec.ofNat 8 a := by
  have h : op.code.toNat < 2 ^ 8 := op.code.isLt
  apply BitVec.eq_of_toNat_eq
  rw [ctxAField, BitVec.extractLsb'_toNat, toNat_commandWord, Nat.shiftRight_eq_div_pow, BitVec.toNat_ofNat]
  omega

@[simp] theorem ctxBField_commandWord (op : Opcode) (a b : Nat) :
    ctxBField (commandWord op a b) = BitVec.ofNat 8 b := by
  have h : op.code.toNat < 2 ^ 8 := op.code.isLt
  apply BitVec.eq_of_toNat_eq
  rw [ctxBField, BitVec.extractLsb'_toNat, toNat_commandWord, Nat.shiftRight_eq_div_pow, BitVec.toNat_ofNat]
  omega

@[simp] theorem reservedField_commandWord (op : Opcode) (a b : Nat) : reservedField (commandWord op a b) = 0 := by
  have h : op.code.toNat < 2 ^ 8 := op.code.isLt
  apply BitVec.eq_of_toNat_eq
  rw [reservedField, BitVec.extractLsb'_toNat, toNat_commandWord, Nat.shiftRight_eq_div_pow]
  have h0 : (0 : BitVec 40).toNat = 0 := rfl
  rw [h0]
  omega

theorem find_row {w : Word64} {row : OpcodeRow} {rows : List OpcodeRow} {P : Prop} [Decidable P]
    (h : row.selectedBy w = true ↔ P) :
    (row :: rows).find? (fun r => r.selectedBy w) = if P then some row else rows.find? (fun r => r.selectedBy w) := by
  by_cases hP : P
  · rw [if_pos hP]
    exact List.find?_cons_of_pos (p := fun r : OpcodeRow => r.selectedBy w) (h.mpr hP)
  · rw [if_neg hP]
    exact List.find?_cons_of_neg (p := fun r : OpcodeRow => r.selectedBy w) (fun hp => hP (h.mp hp))

/-- The row a command word selects is the first of the map that it selects, taken apart row by row. -/
theorem selectRow_eq (w : Word64) : selectRow w =
    if w = 0x01 then some ⟨.aesRound, 0xFFFFFFFFFFFFFFFF, 0x01⟩
    else if w = 0x02 then some ⟨.byteSum, 0xFFFFFFFFFFFFFFFF, 0x02⟩
    else if w = 0x03 then some ⟨.hash, 0xFFFFFFFFFFFFFFFF, 0x03⟩
    else if w = 0x04 then some ⟨.generate, 0xFFFFFFFFFFFFFFFF, 0x04⟩
    else if reservedField w = 0 ∧ ctxBField w = 0 ∧ opcodeField w = 0x10 then
      some ⟨.hashStateInit, 0xFFFFFFFFFFFF00FF, 0x10⟩
    else if reservedField w = 0 ∧ ctxBField w = 0 ∧ opcodeField w = 0x11 then
      some ⟨.hashStateStream, 0xFFFFFFFFFFFF00FF, 0x11⟩
    else if reservedField w = 0 ∧ ctxBField w = 0 ∧ opcodeField w = 0x12 then
      some ⟨.hashStateFold, 0xFFFFFFFFFFFF00FF, 0x12⟩
    else if reservedField w = 0 ∧ opcodeField w = 0x13 then
      some ⟨.hashStateEqual, 0xFFFFFFFFFF0000FF, 0x13⟩
    else none := by
  have hA : ∀ p : Word64, ctxBField p = 0 → reservedField p = 0 →
      (opcodeField w = opcodeField p ∧ ctxBField w = ctxBField p ∧ reservedField w = reservedField p ↔
        reservedField w = 0 ∧ ctxBField w = 0 ∧ opcodeField w = opcodeField p) := by
    intro p h1 h2
    rw [h1, h2]; tauto
  have hE : ∀ p : Word64, reservedField p = 0 →
      (opcodeField w = opcodeField p ∧ reservedField w = reservedField p ↔
        reservedField w = 0 ∧ opcodeField w = opcodeField p) := by
    intro p h
    rw [h]; tauto
  unfold selectRow opcodeMap
  rw [find_row (selectedBy_no_context _ _ _), find_row (selectedBy_no_context _ _ _),
    find_row (selectedBy_no_context _ _ _), find_row (selectedBy_no_context _ _ _),
    find_row ((selectedBy_context_a _ _ _ (by decide)).trans (hA _ (by decide) (by decide))),
    find_row ((selectedBy_context_a _ _ _ (by decide)).trans (hA _ (by decide) (by decide))),
    find_row ((selectedBy_context_a _ _ _ (by decide)).trans (hA _ (by decide) (by decide))),
    find_row ((selectedBy_contexts _ _ _ (by decide) (by decide)).trans (hE _ (by decide)))]
  rfl

/-- The command word of the encoder selects the row of its opcode, when the unused context fields are zero. -/
theorem selectRow_commandWord (op : Opcode) (a b : Nat)
    (h : match op with
      | .hashStateInit | .hashStateStream | .hashStateFold => b = 0
      | .hashStateEqual => True
      | .aesRound | .byteSum | .hash | .generate => a = 0 ∧ b = 0) :
    (selectRow (commandWord op a b)).map OpcodeRow.opcode = some op := by
  have hne : ∀ p : Word64, opcodeField p ≠ op.code → commandWord op a b ≠ p := by
    intro p hp he
    exact hp (by rw [← he, opcodeField_commandWord])
  cases op
  case aesRound => obtain ⟨rfl, rfl⟩ := h; rfl
  case byteSum => obtain ⟨rfl, rfl⟩ := h; rfl
  case hash => obtain ⟨rfl, rfl⟩ := h; rfl
  case generate => obtain ⟨rfl, rfl⟩ := h; rfl
  all_goals
    rw [selectRow_eq, if_neg (hne _ (by decide)), if_neg (hne _ (by decide)), if_neg (hne _ (by decide)),
      if_neg (hne _ (by decide))]
    simp [Opcode.code, h]

theorem take_drop_middle (l m r : List Byte) (k : Nat) (hl : l.length = k) (hm : m.length = 8) :
    ((l ++ (m ++ r)).drop k).take 8 = m := by
  subst hl
  rw [List.drop_left, ← hm, List.take_left]

/-- The five words read back from the bytes of a descriptor (30_encoding.md R71). -/
theorem ofBytes_toBytes (d : Descriptor) : Descriptor.ofBytes d.toBytes = d := by
  have h : ∀ k w l r, d.toBytes = l ++ (Machine.bytesOfWord64 w ++ r) → l.length = 8 * k →
      descriptorWord d.toBytes k = w := by
    intro k w l r he hl
    rw [descriptorWord, he, take_drop_middle _ _ _ _ hl (Machine.bytesOfWord64_length w),
      Machine.word64OfBytes_bytesOfWord64]
  obtain ⟨a, b, c, e, f⟩ := d
  have h0 := h 0 a [] _ (by simp [Descriptor.toBytes]; rfl) rfl
  have h1 := h 1 b (Machine.bytesOfWord64 a) _ (by simp [Descriptor.toBytes]; rfl) (by simp)
  have h2 := h 2 c (Machine.bytesOfWord64 a ++ Machine.bytesOfWord64 b) _ (by simp [Descriptor.toBytes]; rfl) (by simp)
  have h3 := h 3 e (Machine.bytesOfWord64 a ++ Machine.bytesOfWord64 b ++ Machine.bytesOfWord64 c) _
    (by simp [Descriptor.toBytes]; rfl) (by simp)
  have h4 := h 4 f (Machine.bytesOfWord64 a ++ Machine.bytesOfWord64 b ++ Machine.bytesOfWord64 c ++
    Machine.bytesOfWord64 e) [] (by simp [Descriptor.toBytes]) (by simp)
  rw [Descriptor.ofBytes, h0, h1, h2, h3, h4]

end Sys2Proof
end

