-- ==== Sys2Proof/Laws/Memory.lean ====
section
/-! SUPPORT. The data memory: every operation keeps the canonical form and stays in the address space, a byte reads as
last written, and reading `n` bytes. -/

namespace Sys2Proof.Machine

/-- A memory whose addresses start higher also starts lower. -/
theorem memoryWfFrom_mono {low low' : Nat} (h : low' ≤ low) :
    ∀ {m : Memory}, memoryWfFrom low m = true → memoryWfFrom low' m = true
  | [], _ => rfl
  | (a, b) :: rest, hw => by
    simp only [memoryWfFrom, Bool.and_eq_true, decide_eq_true_eq] at hw ⊢
    exact ⟨⟨by omega, hw.1.2⟩, hw.2⟩

theorem memoryWfFrom_cons {low a : Nat} {b : Byte} {m : Memory} :
    memoryWfFrom low ((a, b) :: m) = true ↔ low ≤ a ∧ b ≠ unlistedByte ∧ memoryWfFrom (a + 1) m = true := by
  simp [memoryWfFrom, and_assoc]

theorem consCell_wf {low a : Nat} {b : Byte} {m : Memory} (hl : low ≤ a) (h : memoryWfFrom (a + 1) m = true) :
    memoryWfFrom low (consCell a b m) = true := by
  unfold consCell
  split
  · exact memoryWfFrom_mono (by omega) h
  · rename_i hb
    exact memoryWfFrom_cons.mpr ⟨hl, hb, h⟩

/-- A store keeps the canonical form. -/
theorem writeByte_wfFrom {low a : Nat} {b : Byte} (hl : low ≤ a) :
    ∀ {m : Memory}, memoryWfFrom low m = true → memoryWfFrom low (writeByte m a b) = true
  | [], _ => consCell_wf hl rfl
  | (x, c) :: rest, hw => by
    obtain ⟨h1, h2, h3⟩ := memoryWfFrom_cons.mp hw
    unfold writeByte
    split
    · exact consCell_wf hl (memoryWfFrom_cons.mpr ⟨by omega, h2, h3⟩)
    · split
      · rename_i hax
        exact consCell_wf hl (by rw [hax]; exact h3)
      · exact memoryWfFrom_cons.mpr ⟨h1, h2, writeByte_wfFrom (by omega) h3⟩

theorem readByte_of_lt {low a : Nat} (h : a < low) :
    ∀ {m : Memory}, memoryWfFrom low m = true → readByte m a = unlistedByte
  | [], _ => rfl
  | (x, c) :: rest, hw => by
    obtain ⟨h1, _, h3⟩ := memoryWfFrom_cons.mp hw
    rw [readByte, if_neg (by omega)]
    exact readByte_of_lt (by omega) h3

theorem readByte_consCell {a x : Nat} {b : Byte} {m : Memory} (h : memoryWfFrom (a + 1) m = true) :
    readByte (consCell a b m) x = if x = a then b else readByte m x := by
  unfold consCell
  by_cases hx : x = a
  · subst hx
    split
    · rename_i hb
      rw [readByte_of_lt (Nat.lt_succ_self x) h, if_pos rfl, hb]
    · simp [readByte]
  · split
    · simp
    · simp [readByte, hx]

theorem readByte_writeByte_from {low a x : Nat} {b : Byte} :
    ∀ {m : Memory}, memoryWfFrom low m = true → readByte (writeByte m a b) x = if x = a then b else readByte m x
  | [], _ => by rw [writeByte, readByte_consCell rfl]
  | (y, c) :: rest, hw => by
    obtain ⟨h1, h2, h3⟩ := memoryWfFrom_cons.mp hw
    unfold writeByte
    split
    · rename_i hay
      rw [readByte_consCell (memoryWfFrom_cons.mpr ⟨by omega, h2, h3⟩)]
    · split
      · rename_i hay
        subst hay
        rw [readByte_consCell h3]
        by_cases hx : x = a
        · simp [hx]
        · simp [readByte, hx]
      · rename_i hlt hne
        rw [readByte, readByte, readByte_writeByte_from h3]
        by_cases hx : x = y
        · rw [if_pos hx, if_pos hx, if_neg (by omega)]
        · rw [if_neg hx, if_neg hx]

/-- A byte reads as last written, every other byte as before. -/
theorem readByte_writeByte {m : Memory} (h : m.wf = true) (a x : Nat) (b : Byte) :
    readByte (writeByte m a b) x = if x = a then b else readByte m x :=
  readByte_writeByte_from h

theorem writeByte_wf {m : Memory} (h : m.wf = true) (a : Nat) (b : Byte) : (writeByte m a b).wf = true :=
  writeByte_wfFrom (Nat.zero_le a) h

/-- Storing a byte string keeps the canonical form. -/
theorem writeBytes_wf (v : List Byte) : ∀ {m : Memory} (a : Nat), m.wf = true → (writeBytes m a v).wf = true := by
  induction v with
  | nil => intro m a h; exact h
  | cons b bs ih => intro m a h; exact ih (a + 1) (writeByte_wf h a b)

/-- What a byte reads as after a byte string is stored (20_memory.md R52). -/
theorem readByte_writeBytes (v : List Byte) : ∀ {m : Memory} (a x : Nat), m.wf = true →
    readByte (writeBytes m a v) x = if a ≤ x ∧ x < a + v.length then v.getD (x - a) 0 else readByte m x := by
  induction v with
  | nil => intro m a x h; simp [writeBytes]
  | cons b bs ih =>
    intro m a x h
    rw [writeBytes, ih (a + 1) x (writeByte_wf h a b), readByte_writeByte h]
    by_cases hx : x = a
    · subst hx
      simp
    · by_cases hr : a + 1 ≤ x ∧ x < a + 1 + bs.length
      · have h1 : a ≤ x ∧ x < a + (b :: bs).length := by simp; omega
        have h2 : x - a = x - (a + 1) + 1 := by omega
        rw [if_pos hr, if_pos h1, h2]
        simp
      · have h1 : ¬(a ≤ x ∧ x < a + (b :: bs).length) := by simp; omega
        rw [if_neg hr, if_neg h1, if_neg hx]

/-- The listed addresses after a store. -/
theorem mem_writeByte {m : Memory} {a : Nat} {b : Byte} {cell : Host.Cell} :
    cell ∈ writeByte m a b → cell ∈ m ∨ cell.1 = a := by
  have hcons : ∀ m : Memory, cell ∈ consCell a b m → cell ∈ m ∨ cell.1 = a := by
    intro m h
    unfold consCell at h
    split at h
    · exact .inl h
    · rcases List.mem_cons.mp h with rfl | h
      · exact .inr rfl
      · exact .inl h
  induction m with
  | nil => exact hcons []
  | cons y rest ih =>
    obtain ⟨y, c⟩ := y
    intro h
    unfold writeByte at h
    split at h
    · exact hcons _ h
    · split at h
      · exact (hcons rest h).imp_left (List.mem_cons_of_mem _)
      · rcases List.mem_cons.mp h with rfl | h
        · exact .inl (List.mem_cons_self ..)
        · exact (ih h).imp_left (List.mem_cons_of_mem _)

theorem mem_writeBytes {cell : Host.Cell} (v : List Byte) : ∀ {m : Memory} {a : Nat},
    cell ∈ writeBytes m a v → cell ∈ m ∨ (a ≤ cell.1 ∧ cell.1 < a + v.length) := by
  induction v with
  | nil => intro m a h; exact .inl h
  | cons b bs ih =>
    intro m a h
    rcases ih h with h | h
    · rcases mem_writeByte h with h | h
      · exact .inl h
      · exact .inr (by simp [h])
    · exact .inr (by simp; omega)

/-- A store by the host keeps the canonical form and the address space (20_memory.md R50). -/
theorem hostStore_wf {m : Memory} (h : m.wf = true) (addrW : Nat) (c : Host.Cell) : (hostStore addrW m c).wf = true := by
  unfold hostStore
  split
  · exact writeByte_wf h _ _
  · exact h

theorem hostStores_wf (cs : List Host.Cell) : ∀ {m : Memory} (addrW : Nat), m.wf = true →
    (hostStores addrW m cs).wf = true := by
  induction cs with
  | nil => intro m addrW h; exact h
  | cons c cs ih => intro m addrW h; exact ih addrW (hostStore_wf h addrW c)

theorem hostStores_in_space (cs : List Host.Cell) : ∀ {m : Memory} {addrW : Nat}, (∀ cell ∈ m, cell.1 < 2 ^ addrW) →
    ∀ cell ∈ hostStores addrW m cs, cell.1 < 2 ^ addrW := by
  induction cs with
  | nil => intro m addrW h; exact h
  | cons c cs ih =>
    intro m addrW h
    refine ih (m := hostStore addrW m c) ?_
    intro cell hcell
    unfold hostStore at hcell
    split at hcell
    · rename_i hc
      rcases mem_writeByte hcell with h' | h'
      · exact h cell h'
      · rw [h']; exact hc
    · exact h cell hcell

@[simp] theorem readBytes_length (m : Memory) (n : Nat) : ∀ a, (readBytes m a n).length = n := by
  induction n with
  | zero => intro a; rfl
  | succ n ih => intro a; simp [readBytes, ih]

/-- `text[i] = mem[ptr + i]` (20_memory.md R54). -/
theorem readBytes_getElem? (m : Memory) (n : Nat) : ∀ a i, (readBytes m a n)[i]? = if i < n then some (readByte m (a + i)) else none := by
  induction n with
  | zero => intro a i; simp [readBytes]
  | succ n ih =>
    intro a i
    cases i with
    | zero => simp [readBytes]
    | succ i =>
      have h : a + 1 + i = a + (i + 1) := by omega
      simp [readBytes, ih, h]

/-- Two buffers that lie one after the other hold the two halves of the text. -/
theorem readBytes_append (m : Memory) (k : Nat) : ∀ a n, readBytes m a (k + n) = readBytes m a k ++ readBytes m (a + k) n := by
  induction k with
  | zero => intro a n; simp [readBytes]
  | succ k ih =>
    intro a n
    have h : k + 1 + n = (k + n) + 1 := by omega
    have h' : a + 1 + k = a + (k + 1) := by omega
    rw [h, readBytes, ih, readBytes, List.cons_append, h']

end Sys2Proof.Machine
end

