-- ==== Sys2Proof/Laws/State.lean ====
section
/-! SUPPORT. One lemma per field per update of the state, so that no later proof unfolds a record update. -/

namespace Sys2Proof.Machine

@[simp] theorem State.setMem_addrW (s : State) (m : Memory) :
    (s.setMem m).addrW = s.addrW := rfl
@[simp] theorem State.setMem_genDstAlign (s : State) (m : Memory) :
    (s.setMem m).genDstAlign = s.genDstAlign := rfl
@[simp] theorem State.setMem_contexts (s : State) (m : Memory) :
    (s.setMem m).contexts = s.contexts := rfl
@[simp] theorem State.setMem_min (s : State) (m : Memory) :
    (s.setMem m).min = s.min := rfl
@[simp] theorem State.setMem_work (s : State) (m : Memory) :
    (s.setMem m).work = s.work := rfl
@[simp] theorem State.setMem_mem (s : State) (m : Memory) :
    (s.setMem m).mem = m := rfl
@[simp] theorem State.setMem_grant (s : State) (m : Memory) :
    (s.setMem m).grant = s.grant := rfl
@[simp] theorem State.setMem_host (s : State) (m : Memory) :
    (s.setMem m).host = s.host := rfl
@[simp] theorem State.setMem_responses (s : State) (m : Memory) :
    (s.setMem m).responses = s.responses := rfl

@[simp] theorem State.setContext_addrW (s : State) (c : Nat) (F : FullState) :
    (s.setContext c F).addrW = s.addrW := rfl
@[simp] theorem State.setContext_genDstAlign (s : State) (c : Nat) (F : FullState) :
    (s.setContext c F).genDstAlign = s.genDstAlign := rfl
@[simp] theorem State.setContext_contexts (s : State) (c : Nat) (F : FullState) :
    (s.setContext c F).contexts = s.contexts.set c (some F) := rfl
@[simp] theorem State.setContext_min (s : State) (c : Nat) (F : FullState) :
    (s.setContext c F).min = s.min := rfl
@[simp] theorem State.setContext_work (s : State) (c : Nat) (F : FullState) :
    (s.setContext c F).work = s.work := rfl
@[simp] theorem State.setContext_mem (s : State) (c : Nat) (F : FullState) :
    (s.setContext c F).mem = s.mem := rfl
@[simp] theorem State.setContext_grant (s : State) (c : Nat) (F : FullState) :
    (s.setContext c F).grant = s.grant := rfl
@[simp] theorem State.setContext_host (s : State) (c : Nat) (F : FullState) :
    (s.setContext c F).host = s.host := rfl
@[simp] theorem State.setContext_responses (s : State) (c : Nat) (F : FullState) :
    (s.setContext c F).responses = s.responses := rfl

@[simp] theorem State.setMin_addrW (s : State) (M : MinimalState) :
    (s.setMin M).addrW = s.addrW := rfl
@[simp] theorem State.setMin_genDstAlign (s : State) (M : MinimalState) :
    (s.setMin M).genDstAlign = s.genDstAlign := rfl
@[simp] theorem State.setMin_contexts (s : State) (M : MinimalState) :
    (s.setMin M).contexts = s.contexts := rfl
@[simp] theorem State.setMin_min (s : State) (M : MinimalState) :
    (s.setMin M).min = M := rfl
@[simp] theorem State.setMin_work (s : State) (M : MinimalState) :
    (s.setMin M).work = s.work := rfl
@[simp] theorem State.setMin_mem (s : State) (M : MinimalState) :
    (s.setMin M).mem = s.mem := rfl
@[simp] theorem State.setMin_grant (s : State) (M : MinimalState) :
    (s.setMin M).grant = s.grant := rfl
@[simp] theorem State.setMin_host (s : State) (M : MinimalState) :
    (s.setMin M).host = s.host := rfl
@[simp] theorem State.setMin_responses (s : State) (M : MinimalState) :
    (s.setMin M).responses = s.responses := rfl

@[simp] theorem State.setWork_addrW (s : State) (W : FullState) :
    (s.setWork W).addrW = s.addrW := rfl
@[simp] theorem State.setWork_genDstAlign (s : State) (W : FullState) :
    (s.setWork W).genDstAlign = s.genDstAlign := rfl
@[simp] theorem State.setWork_contexts (s : State) (W : FullState) :
    (s.setWork W).contexts = s.contexts := rfl
@[simp] theorem State.setWork_min (s : State) (W : FullState) :
    (s.setWork W).min = s.min := rfl
@[simp] theorem State.setWork_work (s : State) (W : FullState) :
    (s.setWork W).work = W := rfl
@[simp] theorem State.setWork_mem (s : State) (W : FullState) :
    (s.setWork W).mem = s.mem := rfl
@[simp] theorem State.setWork_grant (s : State) (W : FullState) :
    (s.setWork W).grant = s.grant := rfl
@[simp] theorem State.setWork_host (s : State) (W : FullState) :
    (s.setWork W).host = s.host := rfl
@[simp] theorem State.setWork_responses (s : State) (W : FullState) :
    (s.setWork W).responses = s.responses := rfl

@[simp] theorem State.respond_addrW (s : State) (st : Status) (v : BitVec 128) :
    (s.respond st v).addrW = s.addrW := rfl
@[simp] theorem State.respond_genDstAlign (s : State) (st : Status) (v : BitVec 128) :
    (s.respond st v).genDstAlign = s.genDstAlign := rfl
@[simp] theorem State.respond_contexts (s : State) (st : Status) (v : BitVec 128) :
    (s.respond st v).contexts = s.contexts := rfl
@[simp] theorem State.respond_min (s : State) (st : Status) (v : BitVec 128) :
    (s.respond st v).min = s.min := rfl
@[simp] theorem State.respond_work (s : State) (st : Status) (v : BitVec 128) :
    (s.respond st v).work = s.work := rfl
@[simp] theorem State.respond_mem (s : State) (st : Status) (v : BitVec 128) :
    (s.respond st v).mem = s.mem := rfl
@[simp] theorem State.respond_grant (s : State) (st : Status) (v : BitVec 128) :
    (s.respond st v).grant = s.grant := rfl
@[simp] theorem State.respond_host (s : State) (st : Status) (v : BitVec 128) :
    (s.respond st v).host = s.host := rfl
@[simp] theorem State.respond_responses (s : State) (st : Status) (v : BitVec 128) :
    (s.respond st v).responses = s.responses ++ [⟨st, v⟩] := rfl

@[simp] theorem State.respondWord_addrW (s : State) (w : Word64) :
    (s.respondWord w).addrW = s.addrW := rfl
@[simp] theorem State.respondWord_genDstAlign (s : State) (w : Word64) :
    (s.respondWord w).genDstAlign = s.genDstAlign := rfl
@[simp] theorem State.respondWord_contexts (s : State) (w : Word64) :
    (s.respondWord w).contexts = s.contexts := rfl
@[simp] theorem State.respondWord_min (s : State) (w : Word64) :
    (s.respondWord w).min = s.min := rfl
@[simp] theorem State.respondWord_work (s : State) (w : Word64) :
    (s.respondWord w).work = s.work := rfl
@[simp] theorem State.respondWord_mem (s : State) (w : Word64) :
    (s.respondWord w).mem = s.mem := rfl
@[simp] theorem State.respondWord_grant (s : State) (w : Word64) :
    (s.respondWord w).grant = s.grant := rfl
@[simp] theorem State.respondWord_host (s : State) (w : Word64) :
    (s.respondWord w).host = s.host := rfl
@[simp] theorem State.respondWord_responses (s : State) (w : Word64) :
    (s.respondWord w).responses = s.responses ++ [⟨.ok, w.setWidth 128⟩] := rfl

@[simp] theorem State.respondDone_addrW (s : State) :
    (s.respondDone).addrW = s.addrW := rfl
@[simp] theorem State.respondDone_genDstAlign (s : State) :
    (s.respondDone).genDstAlign = s.genDstAlign := rfl
@[simp] theorem State.respondDone_contexts (s : State) :
    (s.respondDone).contexts = s.contexts := rfl
@[simp] theorem State.respondDone_min (s : State) :
    (s.respondDone).min = s.min := rfl
@[simp] theorem State.respondDone_work (s : State) :
    (s.respondDone).work = s.work := rfl
@[simp] theorem State.respondDone_mem (s : State) :
    (s.respondDone).mem = s.mem := rfl
@[simp] theorem State.respondDone_grant (s : State) :
    (s.respondDone).grant = s.grant := rfl
@[simp] theorem State.respondDone_host (s : State) :
    (s.respondDone).host = s.host := rfl
@[simp] theorem State.respondDone_responses (s : State) :
    (s.respondDone).responses = s.responses ++ [⟨.ok, 0⟩] := rfl

@[simp] theorem State.respondError_addrW (s : State) (st : Status) :
    (s.respondError st).addrW = s.addrW := rfl
@[simp] theorem State.respondError_genDstAlign (s : State) (st : Status) :
    (s.respondError st).genDstAlign = s.genDstAlign := rfl
@[simp] theorem State.respondError_contexts (s : State) (st : Status) :
    (s.respondError st).contexts = s.contexts := rfl
@[simp] theorem State.respondError_min (s : State) (st : Status) :
    (s.respondError st).min = s.min := rfl
@[simp] theorem State.respondError_work (s : State) (st : Status) :
    (s.respondError st).work = s.work := rfl
@[simp] theorem State.respondError_mem (s : State) (st : Status) :
    (s.respondError st).mem = s.mem := rfl
@[simp] theorem State.respondError_grant (s : State) (st : Status) :
    (s.respondError st).grant = s.grant := rfl
@[simp] theorem State.respondError_host (s : State) (st : Status) :
    (s.respondError st).host = s.host := rfl
@[simp] theorem State.respondError_responses (s : State) (st : Status) :
    (s.respondError st).responses = s.responses ++ [⟨st, 0⟩] := rfl

@[simp] theorem State.accept_addrW (s : State) (req : Request) (rest : List Request) :
    (s.accept req rest).addrW = s.addrW := rfl
@[simp] theorem State.accept_genDstAlign (s : State) (req : Request) (rest : List Request) :
    (s.accept req rest).genDstAlign = s.genDstAlign := rfl
@[simp] theorem State.accept_contexts (s : State) (req : Request) (rest : List Request) :
    (s.accept req rest).contexts = s.contexts := rfl
@[simp] theorem State.accept_min (s : State) (req : Request) (rest : List Request) :
    (s.accept req rest).min = s.min := rfl
@[simp] theorem State.accept_work (s : State) (req : Request) (rest : List Request) :
    (s.accept req rest).work = s.work := rfl
@[simp] theorem State.accept_mem (s : State) (req : Request) (rest : List Request) :
    (s.accept req rest).mem = hostStores s.addrW s.mem req.stores := rfl
@[simp] theorem State.accept_grant (s : State) (req : Request) (rest : List Request) :
    (s.accept req rest).grant = req.grant := rfl
@[simp] theorem State.accept_host (s : State) (req : Request) (rest : List Request) :
    (s.accept req rest).host = rest := rfl
@[simp] theorem State.accept_responses (s : State) (req : Request) (rest : List Request) :
    (s.accept req rest).responses = s.responses := rfl

@[simp] theorem State.release_addrW (s : State) :
    (s.release).addrW = s.addrW := rfl
@[simp] theorem State.release_genDstAlign (s : State) :
    (s.release).genDstAlign = s.genDstAlign := rfl
@[simp] theorem State.release_contexts (s : State) :
    (s.release).contexts = s.contexts := rfl
@[simp] theorem State.release_min (s : State) :
    (s.release).min = s.min := rfl
@[simp] theorem State.release_work (s : State) :
    (s.release).work = s.work := rfl
@[simp] theorem State.release_mem (s : State) :
    (s.release).mem = hostStores s.addrW s.mem (hostWrites s.grant.during) := rfl
@[simp] theorem State.release_grant (s : State) :
    (s.release).grant = Grant.empty := rfl
@[simp] theorem State.release_host (s : State) :
    (s.release).host = s.host := rfl
@[simp] theorem State.release_responses (s : State) :
    (s.release).responses = s.responses := rfl

@[simp] theorem State.setMem_nctx (s : State) (m : Memory) :
    (s.setMem m).nctx = s.nctx := rfl
@[simp] theorem State.setMem_context (s : State) (m : Memory) (c : Nat) :
    (s.setMem m).context c = s.context c := rfl
@[simp] theorem State.setMin_nctx (s : State) (M : MinimalState) :
    (s.setMin M).nctx = s.nctx := rfl
@[simp] theorem State.setMin_context (s : State) (M : MinimalState) (c : Nat) :
    (s.setMin M).context c = s.context c := rfl
@[simp] theorem State.setWork_nctx (s : State) (W : FullState) :
    (s.setWork W).nctx = s.nctx := rfl
@[simp] theorem State.setWork_context (s : State) (W : FullState) (c : Nat) :
    (s.setWork W).context c = s.context c := rfl
@[simp] theorem State.respond_nctx (s : State) (st : Status) (v : BitVec 128) :
    (s.respond st v).nctx = s.nctx := rfl
@[simp] theorem State.respond_context (s : State) (st : Status) (v : BitVec 128) (c : Nat) :
    (s.respond st v).context c = s.context c := rfl
@[simp] theorem State.respondWord_nctx (s : State) (w : Word64) :
    (s.respondWord w).nctx = s.nctx := rfl
@[simp] theorem State.respondWord_context (s : State) (w : Word64) (c : Nat) :
    (s.respondWord w).context c = s.context c := rfl
@[simp] theorem State.respondDone_nctx (s : State) :
    (s.respondDone).nctx = s.nctx := rfl
@[simp] theorem State.respondDone_context (s : State) (c : Nat) :
    (s.respondDone).context c = s.context c := rfl
@[simp] theorem State.respondError_nctx (s : State) (st : Status) :
    (s.respondError st).nctx = s.nctx := rfl
@[simp] theorem State.respondError_context (s : State) (st : Status) (c : Nat) :
    (s.respondError st).context c = s.context c := rfl
@[simp] theorem State.accept_nctx (s : State) (req : Request) (rest : List Request) :
    (s.accept req rest).nctx = s.nctx := rfl
@[simp] theorem State.accept_context (s : State) (req : Request) (rest : List Request) (c : Nat) :
    (s.accept req rest).context c = s.context c := rfl
@[simp] theorem State.release_nctx (s : State) :
    (s.release).nctx = s.nctx := rfl
@[simp] theorem State.release_context (s : State) (c : Nat) :
    (s.release).context c = s.context c := rfl

@[simp] theorem State.setContext_nctx (s : State) (c : Nat) (F : FullState) :
    (s.setContext c F).nctx = s.nctx := by
  simp [State.nctx]

/-- `F[c]` after it is written, when `c` is below `NCTX`. -/
theorem State.setContext_context_self (s : State) {c : Nat} (F : FullState) (h : c < s.nctx) :
    (s.setContext c F).context c = some F := by
  unfold State.nctx at h
  simp [State.context, h]

/-- Every other context is left alone (10_state.md R21). -/
theorem State.setContext_context_other (s : State) {c d : Nat} (F : FullState) (h : d ≠ c) :
    (s.setContext c F).context d = s.context d := by
  simp [State.context, List.getD_eq_getElem?_getD, List.getElem?_set_ne (Ne.symm h)]

/-- A context after one of them is written, whatever the index. -/
theorem State.setContext_context (s : State) (c d : Nat) (F : FullState) :
    (s.setContext c F).context d = if d = c ∧ c < s.nctx then some F else s.context d := by
  by_cases hd : d = c
  · subst hd
    by_cases h : d < s.nctx
    · rw [State.setContext_context_self s F h, if_pos ⟨rfl, h⟩]
    · rw [if_neg (fun hh => h hh.2)]
      unfold State.nctx at h
      simp [State.context, List.getD_eq_getElem?_getD, Nat.le_of_not_lt h]
  · rw [State.setContext_context_other s F hd, if_neg (fun hh => hd hh.1)]

/-- A context at or above `NCTX` holds no value. -/
theorem State.context_eq_none_of_le (s : State) {c : Nat} (h : s.nctx ≤ c) : s.context c = none := by
  unfold State.nctx at h
  simp [State.context, List.getD_eq_getElem?_getD, h]

end Sys2Proof.Machine
end

