-- ==== Sys2Proof/Laws/Ops.lean ====
section
/-! SUPPORT. What each shared operation can answer, said once: memory access, the context operand, a step. -/

namespace Sys2Proof.Machine

open Sys2Proof.Safety

theorem regionsCoverAll_iff (rs : List Region) (n : Nat) : ∀ a,
    regionsCoverAll rs a n = true ↔ ∀ k < n, regionsCover rs (a + k) = true := by
  induction n with
  | zero => intro a; simp [regionsCoverAll]
  | succ n ih =>
    intro a
    rw [regionsCoverAll, Bool.and_eq_true, ih]
    constructor
    · rintro ⟨h0, hs⟩ k hk
      cases k with
      | zero => exact h0
      | succ k =>
        have h := hs k (by omega)
        rwa [show a + 1 + k = a + (k + 1) by omega] at h
    · intro h
      refine ⟨h 0 (by omega), fun k hk => ?_⟩
      have h' := h (k + 1) (by omega)
      rwa [show a + (k + 1) = a + 1 + k by omega] at h'

theorem hostWrote_eq_false_iff (s : State) (a n : Nat) :
    hostWrote s.grant.during a n = false ↔ NotWrittenByHost s a n := by
  simp only [hostWrote, List.any_eq_false]
  refine forall₂_congr fun h _ => ?_
  cases h <;> simp [inRange]

theorem hostTouched_eq_false_iff (s : State) (a n : Nat) :
    hostTouched s.grant.during a n = false ↔ NotTouchedByHost s a n := by
  simp only [hostTouched, List.any_eq_false]
  refine forall₂_congr fun h _ => ?_
  cases h <;> simp [inRange]

/-- A read is admitted exactly under the conditions of 20_memory.md R51 and 60_exceptions.md R209. -/
theorem readViolation_eq_none_iff (s : State) (a n : Nat) : readViolation s a n = none ↔ ReadAdmitted s a n := by
  unfold readViolation pointerViolation ReadAdmitted
  rw [← regionsCoverAll_iff, ← hostWrote_eq_false_iff]
  by_cases hn : n = 0
  · simp [hn]
  by_cases ha : a = 0
  · simp [hn, ha]
  by_cases hb : 2 ^ s.addrW < a + n
  · simp [hn, ha, hb]
  by_cases hc : regionsCoverAll s.grant.readable a n = true
  · by_cases hd : hostWrote s.grant.during a n = true
    · simp [hn, ha, hb, hc, hd]
    · simp [hn, ha, hb, hc, hd, Nat.le_of_not_lt hb]
  · simp [hn, ha, hb, hc]

/-- A write is admitted exactly under the conditions of 20_memory.md R52, 47_generate.md R198 and 60_exceptions.md
R209. -/
theorem writeViolation_eq_none_iff (s : State) (a n : Nat) : writeViolation s a n = none ↔ WriteAdmitted s a n := by
  unfold writeViolation pointerViolation WriteAdmitted
  rw [← regionsCoverAll_iff, ← hostTouched_eq_false_iff]
  by_cases hn : n = 0
  · simp [hn]
  by_cases ha : a = 0
  · simp [hn, ha]
  by_cases hb : 2 ^ s.addrW < a + n
  · simp [hn, ha, hb]
  by_cases he : a % s.genDstAlign = 0
  · by_cases hc : regionsCoverAll s.grant.writable a n = true
    · by_cases hd : hostTouched s.grant.during a n = true
      · simp [hn, ha, hb, hc, hd, he]
      · simp [hn, ha, hb, hc, hd, he, Nat.le_of_not_lt hb]
    · simp [hn, ha, hb, hc, he]
  · simp [hn, ha, hb, he]

/-- `MemRead` answers the bytes of an admitted access and nothing else. -/
theorem memRead_eq_ok_iff (s : State) (a n : Nat) (text : List Byte) :
    memRead s a n = .ok text ↔ ReadAdmitted s a n ∧ text = readBytes s.mem a n := by
  rw [← readViolation_eq_none_iff]
  unfold memRead
  cases readViolation s a n with
  | none => simp [eq_comm]
  | some r => simp

/-- A refused `MemRead` was not admitted. -/
theorem memRead_eq_error (s : State) (a n : Nat) (r : Refusal) (h : memRead s a n = .error r) : ¬ ReadAdmitted s a n := by
  rw [← readViolation_eq_none_iff]
  intro hn
  simp [memRead, hn] at h

/-- The text operand of an admitted command. -/
theorem textOperand_of_admitted {s : State} {ptr len : Word64} (h : ReadAdmitted s ptr.toNat len.toNat) :
    textOperand s ptr len = .ok (textAt s ptr len) :=
  (memRead_eq_ok_iff s _ _ _).mpr ⟨h, rfl⟩

/-- A text operand is the admitted text, of the command's length. -/
theorem textOperand_eq_ok {s : State} {ptr len : Word64} {text : List Byte} (h : textOperand s ptr len = .ok text) :
    ReadAdmitted s ptr.toNat len.toNat ∧ text = textAt s ptr len ∧ text.length = len.toNat := by
  obtain ⟨h1, h2⟩ := (memRead_eq_ok_iff s _ _ _).mp h
  exact ⟨h1, h2, by simp [h2]⟩

/-- `MemWrite` answers the memory with the bytes stored, for an admitted access and nothing else. -/
theorem memWrite_eq_ok_iff (s t : State) (a n : Nat) (v : List Byte) :
    memWrite s a n v = .ok t ↔ WriteAdmitted s a n ∧ t = s.setMem (writeBytes s.mem a v) := by
  rw [← writeViolation_eq_none_iff]
  unfold memWrite
  cases writeViolation s a n with
  | none => simp [eq_comm]
  | some r => simp

/-- A context operand is the value the context holds (10_state.md R36). -/
theorem contextOperand_eq_ok_iff (s : State) (c : Nat) (F : FullState) :
    contextOperand s c = .ok F ↔ s.context c = some F := by
  unfold contextOperand
  cases s.context c <;> simp

/-- The one way a context operand is refused (60_exceptions.md R209 V4). -/
theorem contextOperand_eq_error_iff (s : State) (c : Nat) (r : Refusal) :
    contextOperand s c = .error r ↔ s.context c = none ∧ r = .contextHoldsNoValue := by
  unfold contextOperand
  cases s.context c <;> simp [eq_comm]

/-- What follows a command that answered. -/
theorem afterResponse_eq_next {o : Host.Outcome State Fault Refusal} {t : State} (h : afterResponse o = .next t) :
    ∃ u, o = .next u ∧ t = u.release := by
  cases o with
  | next u => exact ⟨u, rfl, by simpa [afterResponse, eq_comm] using h⟩
  | fault f => cases f
  | refused r => simp [afterResponse] at h

/-- Everything a step can do: stay idle, answer an illegal descriptor, or run the command presented. -/
theorem step_eq_next {s t : State} (h : step s = .next t) :
    (s.host = [] ∧ t = s) ∨
    (∃ req rest e, s.host = req :: rest ∧ decode req.descriptor.toList = .error e ∧
      t = ((s.accept req rest).respondError .illegalCommand).release) ∨
    (∃ req rest i u, s.host = req :: rest ∧ decode req.descriptor.toList = .ok i ∧
      exec i (s.accept req rest) = .next u ∧ t = u.release) := by
  unfold step at h
  split at h
  · rename_i hh
    exact .inl ⟨hh, by simpa [eq_comm] using h⟩
  · rename_i req rest hh
    split at h
    · rename_i e he
      exact .inr (.inl ⟨req, rest, e, hh, he, by simpa [afterResponse, illegalDescriptor, eq_comm] using h⟩)
    · rename_i i hi
      obtain ⟨u, hu, ht⟩ := afterResponse_eq_next h
      exact .inr (.inr ⟨req, rest, i, u, hh, hi, hu, ht⟩)

end Sys2Proof.Machine
end

