-- ==== Sys2Proof/Laws/Exec.lean ====
section
/-! SUPPORT. Everything a command can do when it answers, said once (`exec_next`), and the refusals an access can
end in. -/

namespace Sys2Proof.Machine

open Sys2Proof.Safety

/-- A context that holds a value is below `NCTX`. -/
theorem lt_nctx_of_context {s : State} {c : Nat} {F : FullState} (h : s.context c = some F) : c < s.nctx := by
  by_contra hc
  rw [State.context_eq_none_of_le s (Nat.le_of_not_lt hc)] at h
  cases h

/-- The next state of a command is one of six: a response alone; a response after a write of `M` or of `W`; the
stores of `GENERATE`; the context write of `HASH_STATE_INIT` or of `HASH_STATE_STREAM`. -/
theorem exec_next {i : Instr} {s t : State} (h : exec i s = .next t) :
    (∃ st v, t = s.respond st v) ∨
    (∃ M v, t = (s.setMin M).respondWord v) ∨
    (∃ W v, t = (s.setWork W).respondWord v) ∨
    (∃ dst len nonce, i = .generate dst len nonce ∧ WriteAdmitted s dst.toNat len.toNat ∧
      t = (s.setMem (writeBytes s.mem dst.toNat (generatorBytes nonce len.toNat))).respondDone) ∨
    (∃ a seed, i = .hashStateInit a seed ∧ a < s.nctx ∧ t = (s.setContext a (fullInit seed)).respondDone) ∨
    (∃ a ptr len F, i = .hashStateStream a ptr len ∧ s.context a = some F ∧
      ReadAdmitted s ptr.toNat len.toNat ∧
      t = (s.setContext a (streamText F (textAt s ptr len))).respondDone) := by
  cases i <;> simp only [exec] at h
  · cases h; exact .inl ⟨_, _, rfl⟩
  · unfold execByteSum at h
    split at h <;> cases h
    exact .inl ⟨_, _, rfl⟩
  · unfold execHash at h
    split at h <;> cases h
    unfold hashText
    split
    · exact .inr (.inl ⟨_, _, rfl⟩)
    · exact .inr (.inr (.inl ⟨_, _, rfl⟩))
  · unfold execGenerate at h
    split at h <;> cases h
    rename_i u hu
    obtain ⟨ha, rfl⟩ := (memWrite_eq_ok_iff _ _ _ _ _).mp hu
    exact .inr (.inr (.inr (.inl ⟨_, _, _, rfl, ha, rfl⟩)))
  · unfold execHashStateInit at h
    split at h
    · cases h; exact .inl ⟨_, _, rfl⟩
    · cases h; exact .inr (.inr (.inr (.inr (.inl ⟨_, _, rfl, by omega, rfl⟩))))
  · unfold execHashStateStream at h
    split at h
    · cases h; exact .inl ⟨_, _, rfl⟩
    · split at h <;> try cases h
      rename_i F hF
      split at h <;> cases h
      rename_i text ht
      obtain ⟨hr, rfl, _⟩ := textOperand_eq_ok ht
      exact .inr (.inr (.inr (.inr (.inr
        ⟨_, _, _, F, rfl, (contextOperand_eq_ok_iff _ _ _).mp hF, hr, rfl⟩))))
  · unfold execHashStateFold at h
    split at h
    · cases h; exact .inl ⟨_, _, rfl⟩
    · split at h <;> cases h
      unfold foldContext
      split
      · split
        · exact .inr (.inr (.inl ⟨_, _, rfl⟩))
        · exact .inl ⟨_, _, rfl⟩
      · exact .inr (.inl ⟨_, _, rfl⟩)
  · unfold execHashStateEqual at h
    split at h
    · cases h; exact .inl ⟨_, _, rfl⟩
    · split at h <;> try cases h
      split at h <;> cases h
      exact .inl ⟨_, _, rfl⟩

/-- The reasons a read is not admitted. -/
theorem readViolation_mem {s : State} {a n : Nat} {r : Refusal} (h : readViolation s a n = some r) :
    r ∈ [Refusal.outOfBoundsPointer, .nullPointer, .bufferTouched] := by
  unfold readViolation pointerViolation at h
  revert h
  by_cases h0 : n = 0
  · simp [h0]
  by_cases h1 : a = 0
  · simp_all [eq_comm]
  by_cases h2 : 2 ^ s.addrW < a + n
  · simp_all [eq_comm]
  simp only [h0, h1, h2, if_false]
  repeat' split
  all_goals rintro ⟨⟩ <;> simp

/-- The reasons a write is not admitted. -/
theorem writeViolation_mem {s : State} {a n : Nat} {r : Refusal} (h : writeViolation s a n = some r) :
    r ∈ [Refusal.outOfBoundsPointer, .nullPointer, .bufferTouched, .unalignedDestination] := by
  unfold writeViolation pointerViolation at h
  revert h
  by_cases h0 : n = 0
  · simp [h0]
  by_cases h1 : a = 0
  · simp_all [eq_comm]
  by_cases h2 : 2 ^ s.addrW < a + n
  · simp_all [eq_comm]
  simp only [h0, h1, h2, if_false]
  repeat' split
  all_goals rintro ⟨⟩ <;> simp

/-- The text of a command, or why it cannot be read. -/
theorem textOperand_cases (s : State) (ptr len : Word64) :
    (ReadAdmitted s ptr.toNat len.toNat ∧ textOperand s ptr len = .ok (textAt s ptr len)) ∨
    (¬ ReadAdmitted s ptr.toNat len.toNat ∧ ∃ r, textOperand s ptr len = .error r ∧
      r ∈ [Refusal.outOfBoundsPointer, .nullPointer, .bufferTouched]) := by
  by_cases h : ReadAdmitted s ptr.toNat len.toNat
  · exact .inl ⟨h, textOperand_of_admitted h⟩
  · obtain ⟨r, hr⟩ := Option.ne_none_iff_exists'.mp (mt (readViolation_eq_none_iff s ptr.toNat len.toNat).mp h)
    exact .inr ⟨h, r, by simp [textOperand, memRead, hr], readViolation_mem hr⟩

/-- A command that reads a text it may not read is refused for the reason the admission test names. -/
theorem exec_of_readViolation {s : State} {ptr len : Word64} {r : Refusal} {i : Instr} (h : ReadsText s ptr len i)
    (hr : readViolation s ptr.toNat len.toNat = some r) : exec i s = .refused r := by
  cases i <;> simp only [ReadsText] at h
  · obtain ⟨rfl, rfl⟩ := h
    simp [exec, execByteSum, textOperand, memRead, hr]
  · obtain ⟨rfl, rfl⟩ := h
    simp [exec, execHash, textOperand, memRead, hr]
  · obtain ⟨hv, rfl, rfl⟩ := h
    obtain ⟨F, hF⟩ := Option.ne_none_iff_exists'.mp hv
    simp [exec, execHashStateStream, Nat.not_le.mpr (lt_nctx_of_context hF), contextOperand, hF, textOperand, memRead, hr]

@[simp] theorem textAt_length (s : State) (ptr len : Word64) : (textAt s ptr len).length = len.toNat := by
  simp [textAt]

/-- No context holds a value after reset (10_state.md R35 a). -/
theorem resetOf_context (c : Config) (k : Nat) : (State.resetOf c).context k = none := by
  simp only [State.resetOf, State.context, List.getD_eq_getElem?_getD, List.getElem?_replicate]
  split <;> rfl

/-- The memory after reset is in canonical form. -/
theorem resetOf_mem_wf (c : Config) : (State.resetOf c).mem.wf = true := rfl

end Sys2Proof.Machine
end

