-- ==== Sys2Proof/Laws/PerInstr.lean ====
section
/-! SUPPORT. Statements about every command as syntax, one lemma per constructor: the encoding of a well-formed
command is 40 bytes whose command word selects the row of the command's opcode (30_encoding.md R71, R74). -/

namespace Sys2Proof.Laws

theorem descriptor_toBytes_length (d : Descriptor) : d.toBytes.length = 40 := by simp [Descriptor.toBytes]

namespace EncodingSelectsRow

/-- The encoding is a descriptor, and its command word selects the row of the command's opcode. -/
def Statement (i : Instr) : Prop :=
  i.wellFormed = true → (encode i).length = 40 ∧ (selectRow (encodeWords i).w0).map OpcodeRow.opcode = some i.opcode

theorem aesRound (state key : Block128) : Statement (.aesRound state key) :=
  fun _ => ⟨descriptor_toBytes_length _, selectRow_commandWord .aesRound 0 0 ⟨rfl, rfl⟩⟩

theorem byteSum (ptr len : Word64) : Statement (.byteSum ptr len) :=
  fun _ => ⟨descriptor_toBytes_length _, selectRow_commandWord .byteSum 0 0 ⟨rfl, rfl⟩⟩

theorem hash (ptr len seed : Word64) : Statement (.hash ptr len seed) :=
  fun _ => ⟨descriptor_toBytes_length _, selectRow_commandWord .hash 0 0 ⟨rfl, rfl⟩⟩

theorem generate (dst len nonce : Word64) : Statement (.generate dst len nonce) :=
  fun _ => ⟨descriptor_toBytes_length _, selectRow_commandWord .generate 0 0 ⟨rfl, rfl⟩⟩

theorem hashStateInit (a : Nat) (seed : Word64) : Statement (.hashStateInit a seed) :=
  fun _ => ⟨descriptor_toBytes_length _, selectRow_commandWord .hashStateInit a 0 rfl⟩

theorem hashStateStream (a : Nat) (ptr len : Word64) : Statement (.hashStateStream a ptr len) :=
  fun _ => ⟨descriptor_toBytes_length _, selectRow_commandWord .hashStateStream a 0 rfl⟩

theorem hashStateFold (a : Nat) : Statement (.hashStateFold a) :=
  fun _ => ⟨descriptor_toBytes_length _, selectRow_commandWord .hashStateFold a 0 rfl⟩

theorem hashStateEqual (a b : Nat) : Statement (.hashStateEqual a b) :=
  fun _ => ⟨descriptor_toBytes_length _, selectRow_commandWord .hashStateEqual a b trivial⟩

end EncodingSelectsRow

end Sys2Proof.Laws
end

