-- ==== Sys2Proof/Laws/Registers.lean ====
section
/-! SUPPORT. The bytes of what the block functions and the 512-bit registers make: one lemma per function. -/

namespace Sys2Proof.Machine

theorem blockByte_subBytes (X : Block128) (i : Nat) (hi : i < 16) : blockByte (subBytes X) i = sbox (blockByte X i) := by
  rw [subBytes, blockByte_blockOfBytes _ _ hi]
  simp [bytesOfBlock, hi]

theorem blockByte_shiftRows (X : Block128) (i : Nat) (hi : i < 16) :
    blockByte (shiftRows X) i = blockByte X (shiftRowsSource i) := by
  rw [shiftRows, blockByte_blockOfBytes _ _ hi]
  simp [hi]

/-- Row `r` of column `c` of `MixColumns` (40_aes_round.md R95). -/
theorem blockByte_mixColumns (X : Block128) (c r : Nat) (hc : c < 4) (hr : r < 4) :
    blockByte (mixColumns X) (4 * c + r) = (mixedColumn X c).getD r 0 := by
  rw [mixColumns, blockByte_blockOfBytes _ _ (by omega)]
  have h4 : ∀ k, (mixedColumn X k).length = 4 := fun k => rfl
  interval_cases c <;> interval_cases r <;> rfl

theorem blockByte_shuffle (X : Block128) (d : Nat) (hd : d < 16) :
    blockByte (shuffle X) d = blockByte X (shuffleTable.getD d 0) := by
  rw [shuffle, blockByte_blockOfBytes _ _ hd]
  have hl : d < shuffleTable.length := hd
  simp [hl]

theorem blockByte_shrBytes (X : Block128) (k i : Nat) (hi : i < 16) :
    blockByte (shrBytes X k) i = if i + k ≤ 15 then blockByte X (i + k) else 0 := by
  rw [shrBytes, blockByte_blockOfBytes _ _ hi]
  simp [hi]

theorem blockByte_loadBlock (text : List Byte) (off n i : Nat) (hi : i < 16) :
    blockByte (loadBlock text off n) i = if i < n then text.getD (off + i) 0 else 0 := by
  rw [loadBlock, blockByte_blockOfBytes _ _ hi]
  by_cases h : i < n
  · simp [h, List.getElem?_drop]
  · simp [h]

@[simp] theorem lowHalf_add64x2 (X Y : Block128) : lowHalf (add64x2 X Y) = lowHalf X + lowHalf Y := by simp [add64x2]

@[simp] theorem highHalf_add64x2 (X Y : Block128) : highHalf (add64x2 X Y) = highHalf X + highHalf Y := by simp [add64x2]

theorem Reg512.lane_ofLanes (f : Nat → Block128) (i : Nat) (hi : i < 4) : (Reg512.ofLanes f).lane i = f i := by
  interval_cases i <;> rfl

/-- A register is its four lanes. -/
theorem Reg512.ext_lanes {r q : Reg512} (h : ∀ i < 4, r.lane i = q.lane i) : r = q := by
  have h0 := h 0 (by omega)
  have h1 := h 1 (by omega)
  have h2 := h 2 (by omega)
  have h3 := h 3 (by omega)
  cases r; cases q
  simp [Reg512.lane] at h0 h1 h2 h3
  simp [h0, h1, h2, h3]

/-- A register is its 64 bytes (00_scope.md R12). -/
theorem Reg512.ext_bytes {r q : Reg512} (h : ∀ j < 64, r.byte j = q.byte j) : r = q := by
  apply Reg512.ext_lanes
  intro i hi
  apply block_ext
  intro k hk
  have hj := h (16 * i + k) (by omega)
  simpa [Reg512.byte, show (16 * i + k) / 16 = i by omega, show (16 * i + k) % 16 = k by omega] using hj

/-- Byte `j` after byte `k` is replaced (10_state.md R23). -/
theorem Reg512.byte_setByte (r : Reg512) (j k : Nat) (b : Byte) (hj : j < 64) :
    (r.setByte k b).byte j = if j = k then b else r.byte j := by
  unfold Reg512.byte Reg512.setByte
  rw [Reg512.lane_ofLanes _ _ (by omega)]
  by_cases hl : j / 16 = k / 16
  · rw [if_pos hl, blockByte_setBlockByte _ _ _ _ (Nat.mod_lt _ (by omega))]
    by_cases h : j = k
    · simp [h]
    · rw [if_neg h, if_neg (by omega)]
  · rw [if_neg hl, if_neg (by omega)]

@[simp] theorem Reg512.byte_zero (j : Nat) : Reg512.zero.byte j = 0 := by
  have hl : ∀ i, Reg512.zero.lane i = 0 := by
    intro i
    unfold Reg512.lane Reg512.zero
    split <;> [rfl; (split <;> [rfl; (split <;> rfl)])]
  rw [Reg512.byte, hl]
  simp [blockByte]

/-- Byte `j` of a loaded chunk (41_block_primitives.md R115). -/
theorem Reg512.byte_loadChunk (text : List Byte) (off n j : Nat) (hj : j < 64) :
    (loadChunk text off n).byte j = if j < n then text.getD (off + j) 0 else 0 := by
  unfold Reg512.byte loadChunk
  rw [Reg512.lane_ofLanes _ _ (by omega), blockByte_loadBlock _ _ _ _ (Nat.mod_lt _ (by omega)),
    if_pos (Nat.mod_lt _ (by omega)), show 16 * (j / 16) + j % 16 = j by omega]
  by_cases h : j < n
  · simp [h, List.getElem?_drop]
  · simp [h]

@[simp] theorem Reg512.bytes_length (r : Reg512) : r.bytes.length = 64 := by simp [Reg512.bytes]

/-- Streaming two texts one after the other (45_streaming_hash.md R167). -/
theorem streamText_append (F : FullState) (x y : List Byte) : streamText F (x ++ y) = streamText (streamText F x) y := by
  simp [streamText]

@[simp] theorem streamText_nil (F : FullState) : streamText F [] = F := rfl

theorem streamText_cons (F : FullState) (b : Byte) (bs : List Byte) : streamText F (b :: bs) = streamText (streamByte F b) bs := rfl

@[simp] theorem streamByte_key (F : FullState) (b : Byte) : (streamByte F b).key = F.key := by
  unfold streamByte fullAbsorb64
  dsimp only
  split <;> rfl

@[simp] theorem streamByte_insLength (F : FullState) (b : Byte) : (streamByte F b).insLength = F.insLength + 1 := by
  unfold streamByte fullAbsorb64
  dsimp only
  split <;> rfl

/-- A streamed byte that does not fill the buffer only stages it (45_streaming_hash.md R167). -/
theorem streamByte_of_not_full {F : FullState} (h : fillLevel F ≠ 63) (b : Byte) :
    streamByte F b = { F with ins := F.ins.setByte (fillLevel F) b, insLength := F.insLength + 1 } := by
  simp [streamByte, h]

/-- A streamed byte that fills the buffer absorbs it and zeroes it (45_streaming_hash.md R167). -/
theorem streamByte_of_full {F : FullState} (h : fillLevel F = 63) (b : Byte) :
    streamByte F b =
      { fullAbsorb64 { F with ins := F.ins.setByte 63 b, insLength := F.insLength + 1 } with ins := Reg512.zero } := by
  simp [streamByte, h]

/-- The fill level counts modulo 64, also past a wrap of `ins_length` (45_streaming_hash.md R174). -/
theorem fillLevel_streamByte (F : FullState) (b : Byte) : fillLevel (streamByte F b) = (fillLevel F + 1) % 64 := by
  unfold fillLevel
  rw [streamByte_insLength, BitVec.toNat_add]
  have h1 : (1 : Word64).toNat = 1 := rfl
  rw [h1]
  omega

theorem minAbsorbText_key (M : MinimalState) (text : List Byte) : (minAbsorbText M text).key = M.key := by
  have h : ∀ (bs : List Block128) (M : MinimalState), (bs.foldl minAbsorb M).key = M.key := by
    intro bs
    induction bs with
    | nil => intro M; rfl
    | cons B bs ih => intro M; rw [List.foldl_cons, ih]; rfl
  exact h _ _

@[simp] theorem bytesOfBlock_getElem? (X : Block128) (i : Nat) : (bytesOfBlock X)[i]? = if i < 16 then some (blockByte X i) else none := by
  by_cases h : i < 16
  · simp [bytesOfBlock, h]
  · simp [bytesOfBlock, h]

end Sys2Proof.Machine
end

