-- ==== Sys2Proof/Machine/Text.lean ====
section
/-! DEFINITION. Reading the text form of a command (30_encoding.md R79): a mnemonic or one of its names, then the
operands separated by commas. The printed form is `Instr.text` of Decode.lean. No step reads text. -/

namespace Sys2Proof.Machine

/-- The value of a digit, decimal or hexadecimal. -/
def digitValue (c : Char) : Option Nat :=
  if '0' ≤ c ∧ c ≤ '9' then some (c.toNat - 48)
  else if 'a' ≤ c ∧ c ≤ 'f' then some (c.toNat - 87)
  else if 'A' ≤ c ∧ c ≤ 'F' then some (c.toNat - 55)
  else none

/-- The number the digits denote in the base, after those already read. -/
def readDigits (base : Nat) : Nat → List Char → Option Nat
  | acc, [] => some acc
  | acc, c :: cs =>
    match digitValue c with
    | none => none
    | some d => if d < base then readDigits base (acc * base + d) cs else none

/-- A number, "decimal or `0x` hexadecimal" (R79). -/
def readNumber : List Char → Option Nat
  | [] => none
  | '0' :: 'x' :: c :: cs => readDigits 16 0 (c :: cs)
  | c :: cs => readDigits 10 0 (c :: cs)

/-- A number of at most `n` bits. -/
def readBits (n : Nat) (cs : List Char) : Option (BitVec n) :=
  (readNumber cs).bind fun v => if v < 2 ^ n then some (BitVec.ofNat n v) else none

/-- "a context is written `c<n>`" (R79). -/
def readContext : List Char → Option Nat
  | 'c' :: cs => (readNumber cs).bind fun v => if ctxFits v then some v else none
  | _ => none

/-- The characters a quoted string may hold: ASCII, and no quote mark. DESIGN CHOICE (log 20): R79 says only that the
string is ASCII and quoted. Safe. -/
def quotable (c : Char) : Bool := decide (c.toNat < 128) && c != '"'

/-- The bytes of a quoted ASCII string (R79), from the first quote mark to the last. -/
def readQuoted : List Char → Option (List Byte)
  | '"' :: cs =>
    match cs.reverse with
    | '"' :: body => if body.all quotable then some (body.reverse.map fun c => BitVec.ofNat 8 c.toNat) else none
    | _ => none
  | _ => none

/-- A text operand: "`ptr, len` or ... a quoted ASCII string standing for a buffer holding those bytes and its length"
(R79), `place` saying where that buffer is; and the operands after it. -/
def readTextOperand (place : List Byte → Word64) : List (List Char) → Option (Word64 × Word64 × List (List Char))
  | [] => none
  | tok :: rest =>
    match readQuoted tok, rest with
    | some bs, _ => some (place bs, BitVec.ofNat 64 bs.length, rest)
    | none, [] => none
    | none, len :: more => (readBits 64 tok).bind fun p => (readBits 64 len).map fun n => (p, n, more)

/-- The operands of a command (R79). -/
def readOperands (place : List Byte → Word64) (op : Opcode) (toks : List (List Char)) : Option Instr :=
  match op, toks with
  | .aesRound, [x, k] => (readBits 128 x).bind fun x => (readBits 128 k).map fun k => .aesRound x k
  | .byteSum, ts => (readTextOperand place ts).bind fun t => match t.2.2 with
    | [] => some (.byteSum t.1 t.2.1)
    | _ => none
  | .hash, ts => (readTextOperand place ts).bind fun t => match t.2.2 with
    | [seed] => (readBits 64 seed).map fun seed => .hash t.1 t.2.1 seed
    | _ => none
  | .generate, [dst, len, nonce] => (readBits 64 dst).bind fun dst => (readBits 64 len).bind fun len =>
      (readBits 64 nonce).map fun nonce => .generate dst len nonce
  | .hashStateInit, [a, seed] => (readContext a).bind fun a => (readBits 64 seed).map fun seed => .hashStateInit a seed
  | .hashStateStream, a :: ts => (readContext a).bind fun a => (readTextOperand place ts).bind fun t => match t.2.2 with
    | [] => some (.hashStateStream a t.1 t.2.1)
    | _ => none
  | .hashStateFold, [a] => (readContext a).map fun a => .hashStateFold a
  | .hashStateEqual, [a, b] => (readContext a).bind fun a => (readContext b).map fun b => .hashStateEqual a b
  | _, _ => none

/-- The characters without the spaces around them. DESIGN CHOICE (log 20): R79 gives no rule for white space; spaces
around an operand or a line mean nothing, and a tab is no space. Safe. -/
def trimSpaces (cs : List Char) : List Char :=
  ((cs.dropWhile (· == ' ')).reverse.dropWhile (· == ' ')).reverse

/-- The operands of a line, cut at the commas outside quotes; `cur` is the operand being read, backwards. -/
def cutOperands : Bool → List Char → List Char → List (List Char)
  | _, cur, [] => [trimSpaces cur.reverse]
  | quoted, cur, c :: cs =>
    if c = ',' ∧ quoted = false then trimSpaces cur.reverse :: cutOperands false [] cs
    else cutOperands (if c = '"' then !quoted else quoted) (c :: cur) cs

/-- The command a line of text stands for: "every text line is exactly one descriptor" (R79). DESIGN CHOICE (log 20):
the mnemonic ends at the first space, since R79 does not say what separates it from the operands. Safe. -/
def readCommand (place : List Byte → Word64) (line : List Char) : Option Instr :=
  let line := trimSpaces line
  let name := line.takeWhile (· != ' ')
  (opcodeOfName (String.ofList name)).bind fun op =>
    readOperands place op (cutOperands false [] (line.drop name.length))

end Sys2Proof.Machine
end

