-- ==== Sys2Proof/Tests/Slice0.lean ====
section
/-! SUPPORT. Tests on the values of spec/95_test_vectors.md (V1 .. V70, P1 .. P4), and a witness for the hypotheses of
every statement that has some: `witness_<statement>`. -/

namespace Sys2Proof.Tests

open Sys2Proof.Machine Sys2Proof.Safety

set_option Elab.async false

/-! ### Helpers -/

/-- The next state of an outcome. -/
def after : Host.Outcome State Fault Refusal → Option State
  | .next s => some s
  | .fault _ => none
  | .refused _ => none

/-- The response an outcome ends with. -/
def answer (o : Host.Outcome State Fault Refusal) : Option Response := (after o).bind lastResponse

/-- The refusal of an outcome. -/
def refusal : Host.Outcome State Fault Refusal → Option Refusal
  | .next _ => none
  | .fault _ => none
  | .refused r => some r

theorem answers_of_after {o : Host.Outcome State Fault Refusal} (h : (after o).isSome = true) : ∃ t, o = .next t := by
  cases o with
  | next t => exact ⟨t, rfl⟩
  | fault f => cases f
  | refused r => cases h

/-- The text of the decoder's answer, comparable. -/
def decoded (o : Except Reject Instr) : Instr ⊕ Reject :=
  match o with
  | .ok i => .inl i
  | .error e => .inr e

/-- "hello". -/
def hello : List Byte := [0x68, 0x65, 0x6c, 0x6c, 0x6f]

/-- The bytes `00 01 02 ..` of a test vector. -/
def counting (n : Nat) : List Byte := (List.range n).map (BitVec.ofNat 8)

/-- The text `t[i] = (7i + 3) mod 256` of V43 and P2. -/
def seven (n : Nat) : List Byte := (List.range n).map fun i => BitVec.ofNat 8 (7 * i + 3)

/-- A unit after reset whose command may read `text` at `0x1000` and write the 80 bytes at `0x4000`. -/
def unit (text : List Byte) : State :=
  { State.reset with
    mem := writeBytes [] 0x1000 text
    grant := ⟨[⟨0x1000, text.length⟩], [⟨0x4000, 80⟩], []⟩ }

/-- The same with `F[0]` the context after seed 0 and the bytes `staged`, and `F[1]` a fresh context of seed 5. -/
def unitWith (staged text : List Byte) : State :=
  ((unit text).setContext 0 (streamText (fullInit 0) staged)).setContext 1 (fullInit 5)

/-- A request that presents the descriptor and grants nothing. -/
def present (d : Descriptor) : Request := tableRequest 320 (leNat d.toBytes)

/-- A unit after reset to which the host presents the descriptors. -/
def presented (ds : List Descriptor) : State := { State.reset with host := ds.map present }

/-! ### Well-formedness: a context index of an 8-bit field -/

theorem test_wf_limits : ([.hashStateInit 255 0, .hashStateStream 255 0 0, .hashStateFold 255,
    .hashStateEqual 255 255] : List Instr).all Instr.wellFormed = true := by decide

theorem test_wf_refuses_init : (Instr.hashStateInit 256 0).wellFormed = false := by decide
theorem test_wf_refuses_stream : (Instr.hashStateStream 256 0 0).wellFormed = false := by decide
theorem test_wf_refuses_fold : (Instr.hashStateFold 256).wellFormed = false := by decide
theorem test_wf_refuses_equal_a : (Instr.hashStateEqual 256 0).wellFormed = false := by decide
theorem test_wf_refuses_equal_b : (Instr.hashStateEqual 0 256).wellFormed = false := by decide

/-! ### Decoding (30_encoding.md R71 to R75; V70, P1 to P4) -/

/-- P4 #1. -/
theorem test_decode_aes_round : decoded (decodeWords
    ⟨0x01, 0x63746f725d53475d, 0x7b5b546573745665, 0x5b477565726f6e5d, 0x4869285368617929⟩) =
    .inl (.aesRound 0x7b5b54657374566563746f725d53475d 0x48692853686179295b477565726f6e5d) := by decide

/-- P2 #10. -/
theorem test_decode_bytesum : decoded (decodeWords ⟨0x02, 0x2000, 0x96, 0, 0⟩) = .inl (.byteSum 0x2000 150) := by decide

/-- V70, `W4` ignored. -/
theorem test_decode_hash : decoded (decodeWords ⟨0x03, 0x1000, 0x5, 0x0, 0xFFFF⟩) = .inl (.hash 0x1000 5 0) := by decide

/-- P4 #3. -/
theorem test_decode_generate : decoded (decodeWords ⟨0x04, 0x4000, 0x50, 7, 0⟩) = .inl (.generate 0x4000 80 7) := by decide

/-- P2 #1. -/
theorem test_decode_init : decoded (decodeWords ⟨0x0110, 0, 0, 0xDEADBEEF, 0⟩) = .inl (.hashStateInit 1 0xDEADBEEF) := by
  decide

/-- P2 #4. -/
theorem test_decode_stream : decoded (decodeWords ⟨0x0111, 0x2001, 0x3F, 0, 0⟩) = .inl (.hashStateStream 1 0x2001 63) := by
  decide

/-- V70. -/
theorem test_decode_fold : decoded (decodeWords ⟨0x0212, 0, 0, 0, 0⟩) = .inl (.hashStateFold 2) := by decide

/-- V70: `0x020013` is `c0, c2` and `0x0113` is `c1, c0`. -/
theorem test_decode_equal : decoded (decodeWords ⟨0x020013, 0, 0, 0, 0⟩) = .inl (.hashStateEqual 0 2) ∧
    decoded (decodeWords ⟨0x0113, 0, 0, 0, 0⟩) = .inl (.hashStateEqual 1 0) := by decide

/-- V70 and P4 #8, the illegal rows. -/
theorem test_decode_rejects : decoded (decodeWords ⟨0x0, 0, 0, 0, 0⟩) = .inr .unassignedOpcode ∧
    decoded (decodeWords ⟨0x05, 0, 0, 0, 0⟩) = .inr .unassignedOpcode ∧
    decoded (decodeWords ⟨0xFF, 0, 0, 0, 0⟩) = .inr .unassignedOpcode ∧
    decoded (decodeWords ⟨0x0103, 0x1000, 5, 0, 0⟩) = .inr .unusedContextField ∧
    decoded (decodeWords ⟨0x010012, 0, 0, 0, 0⟩) = .inr .unusedContextField ∧
    decoded (decodeWords ⟨0x01000012, 0, 0, 0, 0⟩) = .inr .reservedBits := by decide

/-- The 40-byte image of V70's first row. -/
def helloImage : List Byte :=
  [0x03, 0, 0, 0, 0, 0, 0, 0, 0x00, 0x10, 0, 0, 0, 0, 0, 0, 0x05, 0, 0, 0, 0, 0, 0, 0, 0, 0, 0, 0, 0, 0, 0, 0,
   0, 0, 0, 0, 0, 0, 0, 0]

theorem test_decode_image : decoded (decode helloImage) = .inl (.hash 0x1000 5 0) ∧
    encode (.hash 0x1000 5 0) = helloImage ∧ decoded (decode (helloImage.take 39)) = .inr .wrongLength := by
  decide +kernel

/-- The text form of R79, and its names. -/
theorem test_text : (Instr.hashStateStream 1 0x2001 63).text = "HASH_STATE_STREAM c1, 8193, 63" ∧
    opcodeOfName "fold" = some .hashStateFold ∧ opcodeOfName "GENERATE" = some .generate ∧
    opcodeOfName "aes_round" = none := by decide +kernel

/-- R79: names, hexadecimal and decimal numbers, a context, a quoted text standing for the buffer at `0x2000`; a printed
command is read back. -/
theorem test_read_text :
    readCommand (fun _ => 0) "HASH 0x1000, 5, 0".toList = some (.hash 0x1000 5 0) ∧
    readCommand (fun _ => 0x2000) "stream c1, \"hi, you\"".toList = some (.hashStateStream 1 0x2000 7) ∧
    readCommand (fun _ => 0) "HASH_STATE_FOLD c256".toList = none ∧
    readCommand (fun _ => 0) "BYTESUM \"a\"b\"".toList = none ∧
    readCommand (fun _ => 0) (Instr.generate 0x4000 80 9).text.toList = some (.generate 0x4000 80 9) := by decide +kernel

/-! ### The combinational functions -/

/-- V1. -/
theorem test_gmul : xtime 0x57 = 0xae ∧ xtime 0x80 = 0x1b ∧ xtime 0x00 = 0x00 ∧ gmul 0x57 0x13 = 0xfe ∧
    gmul 0x57 0x83 = 0xc1 := by decide

/-- V2: the three stages. -/
theorem test_aes_stages :
    let x := blockOfBytes
      [0x19, 0x3d, 0xe3, 0xbe, 0xa0, 0xf4, 0xe2, 0x2b, 0x9a, 0xc6, 0x8d, 0x2a, 0xe9, 0xf8, 0x48, 0x08]
    bytesOfBlock (subBytes x) =
      [0xd4, 0x27, 0x11, 0xae, 0xe0, 0xbf, 0x98, 0xf1, 0xb8, 0xb4, 0x5d, 0xe5, 0x1e, 0x41, 0x52, 0x30] ∧
    bytesOfBlock (shiftRows (subBytes x)) =
      [0xd4, 0xbf, 0x5d, 0x30, 0xe0, 0xb4, 0x52, 0xae, 0xb8, 0x41, 0x11, 0xf1, 0x1e, 0x27, 0x98, 0xe5] ∧
    bytesOfBlock (mixColumns (shiftRows (subBytes x))) =
      [0x04, 0x66, 0x81, 0xe5, 0xe0, 0xcb, 0x19, 0x9a, 0x48, 0xf8, 0xd3, 0x7a, 0x28, 0x06, 0x26, 0x4c] := by
  decide +kernel

/-- V6 and V5. -/
theorem test_aes_round_values : bytesOfBlock (aesRound (blockOfBytes (counting 16)) 0) =
      [0x6a, 0x6a, 0x5c, 0x45, 0x2c, 0x6d, 0x33, 0x51, 0xb0, 0xd9, 0x5d, 0x61, 0x27, 0x9c, 0x21, 0x5c] ∧
    aesRound (BitVec.allOnes 128) (BitVec.allOnes 128) = 0xe9e9e9e9e9e9e9e9e9e9e9e9e9e9e9e9 := by decide +kernel

/-- V10 and V11. -/
theorem test_shuffle_add : bytesOfBlock (shuffle (blockOfBytes
      [0x1b, 0xfb, 0x79, 0x89, 0xd9, 0xd5, 0x16, 0x92, 0xac, 0xb5, 0xdf, 0x98, 0xa6, 0x0b, 0x31, 0xd1])) =
      [0xd9, 0x98, 0xb5, 0x16, 0xac, 0x0b, 0xd1, 0xd5, 0x31, 0x89, 0xfb, 0xa6, 0x1b, 0x92, 0xdf, 0x79] ∧
    add64x2 (blockOfHalves 0xFFFFFFFFFFFFFFFF 0x8000000000000000) (blockOfHalves 1 0x8000000000000001) =
      blockOfHalves 0 1 := by decide +kernel

/-- V13. -/
theorem test_load_block : bytesOfBlock (loadBlock hello 0 5) =
      [0x68, 0x65, 0x6c, 0x6c, 0x6f, 0, 0, 0, 0, 0, 0, 0, 0, 0, 0, 0] ∧ loadBlock hello 0 0 = 0 := by decide +kernel

/-- V20, `MIN.INIT(0xDEADBEEF)`. -/
theorem test_min_init : bytesOfBlock (minInit 0xDEADBEEF).aes =
      [0x3c, 0xb6, 0x0e, 0x5b, 0x88, 0x6a, 0x3f, 0x24, 0xab, 0xcd, 0xdd, 0xdd, 0x2e, 0x8a, 0x19, 0x13] ∧
    bytesOfBlock (minInit 0xDEADBEEF).sum =
      [0xf4, 0x45, 0xd4, 0x57, 0xd9, 0xd5, 0x16, 0x92, 0x43, 0x0b, 0x72, 0x46, 0xa6, 0x0b, 0x31, 0xd1] := by
  decide +kernel

/-- V30: lane 3 of `W` after the tail of a hash of 70 bytes. -/
theorem test_long_hash_lane : bytesOfBlock ((longHashFile (counting 70) 0).aes.lane 3) =
      [0x02, 0xa2, 0x6f, 0xee, 0x4f, 0x43, 0x96, 0xc2, 0x85, 0x28, 0x51, 0x14, 0x91, 0x36, 0x11, 0x2b] ∧
    (longHashFile (counting 70) 0).insLength = 70 := by decide +kernel

/-! ### The commands, one step each -/

/-- P4 #1. -/
theorem test_aes_round_command : answer (exec
    (.aesRound 0x7b5b54657374566563746f725d53475d 0x48692853686179295b477565726f6e5d) State.reset) =
    some ⟨.ok, 0xa8311c2f9fdba3c58b104b58ded7e595⟩ := by decide +kernel

/-- V60: "hi". -/
theorem test_bytesum_hi : answer (exec (.byteSum 0x1000 2) (unit [0x68, 0x69])) = some ⟨.ok, 209⟩ := by decide +kernel

/-- Hand calculation from R191: three bytes `ff` are 765, with no sign extension. -/
theorem test_bytesum_unsigned : answer (exec (.byteSum 0x1000 3) (unit [0xff, 0xff, 0xff])) = some ⟨.ok, 765⟩ := by
  decide +kernel

/-- V21. -/
theorem test_hash_hello : answer (exec (.hash 0x1000 5 0) (unit hello)) = some ⟨.ok, 0x24A8B11B9B4CF7BA⟩ := by
  decide +kernel

/-- V41, 65 bytes: the full regime. -/
theorem test_hash_65 : answer (exec (.hash 0x1000 65 0x0123456789ABCDEF) (unit (counting 65))) =
    some ⟨.ok, 0xEDE69AE07C7AB561⟩ := by decide +kernel

/-- V50, 17 bytes: block 0 and one byte of block 1; the byte after them is not written. -/
theorem test_generate_17 : (after (exec (.generate 0x4000 17 0) (unit []))).map (fun t => readBytes t.mem 0x4000 18) =
    some [0xb0, 0x6b, 0xc0, 0xe6, 0xeb, 0x09, 0x5c, 0x47, 0x27, 0x10, 0x13, 0x60, 0x4d, 0xe9, 0x7a, 0x70, 0x8d, 0] := by
  decide +kernel

/-- V51: the counter wraps in block 1. -/
theorem test_generate_wraps : (after (exec (.generate 0x4000 32 0xFFFFFFFFFFFFFFFF) (unit []))).map
      (fun t => readBytes t.mem 0x4010 16) =
    some [0x4c, 0xad, 0x03, 0xb5, 0xbe, 0xa4, 0x95, 0x38, 0x15, 0xf0, 0xd2, 0x70, 0x04, 0x66, 0xb2, 0x94] := by
  decide +kernel

/-- P2 #1, lane 3 of `aes`; `F[0]` still holds no value. -/
theorem test_init_c1 : ((after (exec (.hashStateInit 1 0xDEADBEEF) State.reset)).map fun t =>
      (t.context 0, (t.context 1).map fun F => bytesOfBlock (F.aes.lane 3))) =
    some (none, some [0x32, 0xee, 0xd1, 0x17, 0xb7, 0x29, 0xac, 0xc0, 0xf8, 0xb7, 0xea, 0x6b, 0xb5, 0xd5, 0x84, 0x3f]) := by
  decide +kernel

/-- P4 #10. -/
theorem test_init_bad_context : answer (exec (.hashStateInit 7 0) State.reset) = some ⟨.badContext, 0⟩ := by decide

/-- P1 #2 and #4: bytes 16 .. of the staging buffer hold the second piece. -/
theorem test_stream_staging : ((after (exec (.hashStateStream 0 0x1000 5) (unitWith (counting 16) hello))).bind fun t =>
      (t.context 0).map fun F => (F.insLength, (F.ins.bytes.drop 15).take 7)) =
    some (21, [0x0f, 0x68, 0x65, 0x6c, 0x6c, 0x6f, 0]) := by decide +kernel

/-- P3 #15, #16 with the table of 43_full_state.md R137: the 64th byte completes the chunk `00 .. 3f`, the 65th is
staged. -/
theorem test_stream_completes : ((after (exec (.hashStateStream 0 0x1000 2) (unitWith (counting 63) [0x3f, 0x71]))).bind
      fun t => (t.context 0).map fun F => (F.insLength, F.ins.bytes.take 2, bytesOfBlock (F.sum.lane 3))) =
    some (65, [0x71, 0], [0x12, 0xa3, 0x80, 0x34, 0x9d, 0x55, 0x99, 0x29, 0xa1, 0xbe, 0x36, 0x14, 0x53, 0x45, 0x95, 0xcd]) := by decide +kernel

/-- V44: bytes `00 01 .. 3f`, seed 0. -/
theorem test_fold_64 : answer (exec (.hashStateFold 0) (unitWith (counting 64) [])) = some ⟨.ok, 0x307D08E713BA3E84⟩ := by
  decide +kernel

/-- V42: `init` and `fold` give the hash of the empty text. -/
theorem test_fold_empty : answer (exec (.hashStateFold 0) (unitWith [] [])) = some ⟨.ok, 0x066E609969A45246⟩ := by
  decide +kernel

/-- P3 #18 and #11: reflexive, and different seeds differ. -/
theorem test_equal : answer (exec (.hashStateEqual 0 0) (unitWith hello [])) = some ⟨.ok, 1⟩ ∧
    answer (exec (.hashStateEqual 0 1) (unitWith hello [])) = some ⟨.ok, 0⟩ := by decide +kernel

/-- P4 #5 and #7, V70's last two rows. -/
theorem test_refusals : refusal (exec (.generate 0x4008 5 0) (unit hello)) = some .unalignedDestination ∧
    refusal (exec (.hash 0x1003 5 0) (unit hello)) = some .outOfBoundsPointer ∧
    refusal (exec (.hash 0 5 0) (unit hello)) = some .nullPointer ∧
    refusal (exec (.hashStateFold 0) State.reset) = some .contextHoldsNoValue := by decide +kernel

/-- P4 #8 through the command port, then P4 #2: the responses of two steps, and the idle unit. -/
theorem test_step_responses :
    (after (Sys2Proof.core.run 3 (presented [⟨0xFF, 0, 0, 0, 0⟩, ⟨0x01, 0, 0, 0, 0⟩]))).map State.responses =
      some [⟨.illegalCommand, 0⟩, ⟨.ok, 0x63636363636363636363636363636363⟩] := by decide +kernel

/-- The first instruction after reset: P2 #1's descriptor placed with `withFetchWord`. -/
theorem test_fetch_word : answer (step (State.reset.withFetchWord 64 0x0110)) = some ⟨.ok, 0⟩ := by decide +kernel

/-! ### Witnesses -/

theorem readAdmitted_of {s : State} {a n : Nat} (h : readViolation s a n = none) : ReadAdmitted s a n :=
  (readViolation_eq_none_iff s a n).mp h

theorem writeAdmitted_of {s : State} {a n : Nat} (h : writeViolation s a n = none) : WriteAdmitted s a n :=
  (writeViolation_eq_none_iff s a n).mp h

/-- A unit whose last two addresses are readable and writable, with no alignment asked. -/
def topUnit : State :=
  { State.reset with genDstAlign := 1, grant := ⟨[⟨2 ^ 64 - 2, 2⟩], [⟨2 ^ 64 - 2, 2⟩], []⟩ }

theorem witness_DecodeOfEncode : (Instr.hashStateEqual 255 0).wellFormed = true := by decide

theorem witness_DescriptorCarriesOperands :
    decodeWords ⟨0x0110, 7, 8, 9, 10⟩ = .ok (.hashStateInit 1 9) ∧
    OperandsFrom ⟨0x0110, 7, 8, 9, 10⟩ (.hashStateInit 1 9) := ⟨rfl, rfl⟩

theorem witness_IllegalDescriptors : (presented [⟨0x01000012, 0, 0, 0, 0⟩]).host = present ⟨0x01000012, 0, 0, 0, 0⟩ :: [] ∧
    ∃ e, decodeWords (requestWords (present ⟨0x01000012, 0, 0, 0, 0⟩)) = .error e :=
  ⟨rfl, .reservedBits, by decide +kernel⟩

theorem witness_RowsDoNotOverlap : ∃ row ∈ opcodeMap, row.selectedBy 0x0110 = true :=
  ⟨⟨.hashStateInit, 0xFFFFFFFFFFFF00FF, 0x10⟩, by decide, by decide⟩

/-- The three cases of R78: `0x05`, `HASH_STATE_FOLD c2` of two contexts, `HASH_STATE_INIT c1`. -/
theorem witness_DecodeAndDispatch :
    ((presented [⟨0x05, 0, 0, 0, 0⟩]).host = [present ⟨0x05, 0, 0, 0, 0⟩] ∧
      ∀ row ∈ opcodeMap, row.selectedBy (requestWords (present ⟨0x05, 0, 0, 0, 0⟩)).w0 = false) ∧
    ((presented [⟨0x0212, 0, 0, 0, 0⟩]).host = [present ⟨0x0212, 0, 0, 0, 0⟩] ∧
      decodeWords (requestWords (present ⟨0x0212, 0, 0, 0, 0⟩)) = .ok (.hashStateFold 2) ∧
      BadContext (.hashStateFold 2) (presented [⟨0x0212, 0, 0, 0, 0⟩])) ∧
    ((presented [⟨0x0110, 0, 0, 0, 0⟩]).host = [present ⟨0x0110, 0, 0, 0, 0⟩] ∧
      decodeWords (requestWords (present ⟨0x0110, 0, 0, 0, 0⟩)) = .ok (.hashStateInit 1 0) ∧
      ¬ BadContext (.hashStateInit 1 0) (presented [⟨0x0110, 0, 0, 0, 0⟩]) ∧
      ∃ t, step (presented [⟨0x0110, 0, 0, 0, 0⟩]) = .next t) := by
  refine ⟨⟨rfl, by decide +kernel⟩,
    ⟨rfl, by decide +kernel, 2, by decide, by decide⟩, ⟨rfl, by decide +kernel, ?_, answers_of_after (by decide +kernel)⟩⟩
  rintro ⟨c, hc, hn⟩
  rw [List.mem_singleton.mp hc] at hn
  exact absurd hn (by decide)

/-- A response of each status. -/
theorem witness_StatusOfResponse :
    (∃ t, step (presented [⟨0x05, 0, 0, 0, 0⟩]) = .next t) ∧ (∃ t, step (presented [⟨0x0212, 0, 0, 0, 0⟩]) = .next t) ∧
    (∃ t, step (presented [⟨0x0110, 0, 0, 0, 0⟩]) = .next t) :=
  ⟨answers_of_after (by decide +kernel), answers_of_after (by decide +kernel), answers_of_after (by decide +kernel)⟩

/-- The first index out of range, in each of the two fields. -/
theorem witness_BadContextAnswered : BadContext (.hashStateFold 2) State.reset ∧
    BadContext (.hashStateEqual 1 2) State.reset :=
  ⟨⟨2, by decide, by decide⟩, ⟨2, by decide, by decide⟩⟩

theorem witness_StepRunsDecodedCommand :
    (presented [⟨0x0110, 0, 0, 0, 0⟩]).host = [present ⟨0x0110, 0, 0, 0, 0⟩] ∧
    decode (present ⟨0x0110, 0, 0, 0, 0⟩).descriptor.toList = .ok (.hashStateInit 1 0) := ⟨rfl, by decide +kernel⟩

theorem witness_IdleUnitStaysIdle : State.reset.host = [] := rfl

/-- Two blocks that differ in byte 1, which byte 0 of the result does not depend on. -/
theorem witness_AesRoundLaws : blockByte (0 : Block128) 0 = blockByte (0x100 : Block128) 0 ∧ (0 : Block128) ≠ 0x100 ∧
    ∀ r < 4, blockByte (0 : Block128) (r + 4 * ((0 / 4 + r) % 4)) = blockByte 0x100 (r + 4 * ((0 / 4 + r) % 4)) := by
  decide

theorem witness_ShortBlocksAreChunkLanes : (16 < (counting 17).length ∧ (counting 17).length ≤ 64) ∧
    (16 < (counting 64).length ∧ (counting 64).length ≤ 64) ∧ ([] : List Byte).length ≤ 64 := by decide

/-- A key whose low half wraps, and length 0. -/
theorem witness_FinalizeFormulas :
    ((lowHalf (blockOfHalves 4 0xFFFFFFFFFFFFFFFF)).toNat = ((lowHalf (minInit 0xFFFFFFFFFFFFFFFF).key).toNat + (5 : Word64).toNat) % 2 ^ 64 ∧
      highHalf (blockOfHalves 4 0xFFFFFFFFFFFFFFFF) = highHalf (minInit 0xFFFFFFFFFFFFFFFF).key) ∧
    ((lowHalf (minInit 7).key).toNat = ((lowHalf (minInit 7).key).toNat + (0 : Word64).toNat) % 2 ^ 64) ∧
    ((lowHalf (fullInit 7).key).toNat = ((lowHalf (fullInit 7).key).toNat + (fullInit 7).insLength.toNat) % 2 ^ 64) := by
  decide

/-- An empty text at the null pointer, and the last two bytes of the address space. -/
theorem witness_ByteSumResult : ReadAdmitted State.reset (0 : Word64).toNat (0 : Word64).toNat ∧
    ReadAdmitted topUnit (0xFFFFFFFFFFFFFFFE : Word64).toNat (2 : Word64).toNat :=
  ⟨.inl rfl, readAdmitted_of (by decide +kernel)⟩

/-- Lengths 64 and 65. -/
theorem witness_HashResult :
    (ReadAdmitted (unit (counting 64)) (0x1000 : Word64).toNat (64 : Word64).toNat ∧ (64 : Word64).toNat ≤ 64) ∧
    (ReadAdmitted (unit (counting 65)) (0x1000 : Word64).toNat (65 : Word64).toNat ∧ 64 < (65 : Word64).toNat) :=
  ⟨⟨readAdmitted_of (by decide +kernel), by decide⟩, ⟨readAdmitted_of (by decide +kernel), by decide⟩⟩

theorem witness_LongHashAbsorbsChunks : 64 < (counting 65).length := by decide

/-- The same two letters at two places, in two different units. -/
theorem witness_HashIsPure : ∃ t t',
    exec (.hash 0x1002 2 7) (unit hello) = .next t ∧ exec (.hash 0x1000 2 7) (unitWith hello [0x6c, 0x6c]) = .next t' ∧
    textAt (unit hello) 0x1002 2 = textAt (unitWith hello [0x6c, 0x6c]) 0x1000 2 := by
  obtain ⟨t, ht⟩ := answers_of_after (o := exec (.hash 0x1002 2 7) (unit hello)) (by decide +kernel)
  obtain ⟨t', ht'⟩ := answers_of_after (o := exec (.hash 0x1000 2 7) (unitWith hello [0x6c, 0x6c])) (by decide +kernel)
  exact ⟨t, t', ht, ht', by decide +kernel⟩

/-- An empty destination at the null pointer, 80 bytes over a nonempty memory, and the end of the address space. -/
theorem witness_GenerateResult : (State.reset.mem.wf = true ∧ WriteAdmitted State.reset (0 : Word64).toNat (0 : Word64).toNat) ∧
    ((unit hello).mem.wf = true ∧ WriteAdmitted (unit hello) (0x4000 : Word64).toNat (80 : Word64).toNat) ∧
    (topUnit.mem.wf = true ∧ WriteAdmitted topUnit (0xFFFFFFFFFFFFFFFE : Word64).toNat (2 : Word64).toNat) :=
  ⟨⟨rfl, .inl rfl⟩, ⟨by decide +kernel, writeAdmitted_of (by decide +kernel)⟩, ⟨rfl, writeAdmitted_of (by decide +kernel)⟩⟩

theorem witness_GeneratePrefix : 17 ≤ 80 := by decide

/-- The last index in range. -/
theorem witness_InitResult : 1 < State.reset.nctx := by decide

/-- A text that completes a chunk, and the empty text. -/
theorem witness_StreamResult :
    ((unitWith (counting 63) hello).context 0 = some (streamText (fullInit 0) (counting 63)) ∧
      ReadAdmitted (unitWith (counting 63) hello) (0x1000 : Word64).toNat (5 : Word64).toNat) ∧
    ReadAdmitted (unitWith (counting 63) hello) (0 : Word64).toNat (0 : Word64).toNat :=
  ⟨⟨rfl, readAdmitted_of (by decide +kernel)⟩, .inl rfl⟩

theorem witness_ContextContents : (counting 65).length < 2 ^ 64 := by decide

/-- "he" then "llo", against "hello". -/
theorem witness_StreamSplitting : ∃ t t' t'',
    exec (.hashStateStream 0 0x1000 2) (unitWith [] hello) = .next t ∧
    exec (.hashStateStream 0 0x1002 3) t = .next t' ∧
    exec (.hashStateStream 0 0x1000 5) (unitWith [] hello) = .next t'' ∧
    0 < (unitWith [] hello).nctx ∧ 0 < t.nctx ∧
    textAt (unitWith [] hello) 0x1000 5 = textAt (unitWith [] hello) 0x1000 2 ++ textAt t 0x1002 3 := by
  have hF : (unitWith [] hello).context 0 = some (fullInit 0) := rfl
  have h1 : exec (.hashStateStream 0 0x1000 2) (unitWith [] hello) =
      .next (((unitWith [] hello).setContext 0 (streamText (fullInit 0) (textAt (unitWith [] hello) 0x1000 2))).respondDone) := by
    have hr : ReadAdmitted (unitWith [] hello) (0x1000 : Word64).toNat (2 : Word64).toNat :=
      readAdmitted_of (by decide +kernel)
    simp only [exec, execHashStateStream, (contextOperand_eq_ok_iff _ _ _).mpr hF, textOperand_of_admitted hr]
    rw [if_neg (by decide)]
  refine ⟨_, _, _, h1, (answers_of_after (by decide +kernel)).choose_spec,
    (answers_of_after (by decide +kernel)).choose_spec, by decide, by decide, by decide +kernel⟩

/-- Contexts after 65, 64, 63 and 0 bytes. -/
theorem witness_FoldResult :
    (∃ F, (unitWith (counting 65) []).context 0 = some F ∧ 64 ≤ F.insLength.toNat ∧ 0 < F.insLength.toNat % 64) ∧
    (∃ F, (unitWith (counting 64) []).context 0 = some F ∧ 64 ≤ F.insLength.toNat ∧ F.insLength.toNat % 64 = 0) ∧
    (∃ F, (unitWith (counting 63) []).context 0 = some F ∧ F.insLength.toNat < 64) ∧
    (∃ F, (unitWith [] []).context 0 = some F ∧ F.insLength.toNat < 64) :=
  ⟨⟨_, rfl, by decide +kernel, by decide +kernel⟩, ⟨_, rfl, by decide +kernel, by decide +kernel⟩,
    ⟨_, rfl, by decide +kernel⟩, ⟨_, rfl, by decide +kernel⟩⟩

theorem witness_ShortFoldAbsorbsStagingLanes :
    ReachedByStreaming (streamText (fullInit 0) (counting 63)) ∧
    (streamText (fullInit 0) (counting 63)).insLength.toNat < 64 := ⟨⟨0, _, rfl⟩, by decide +kernel⟩

theorem witness_StreamAfterFold : (∃ t, exec (.hashStateFold 0) (unitWith (counting 65) hello) = .next t) ∧
    ∃ v, exec (.hashStateStream 0 0x1000 5) (unitWith (counting 65) hello) = .next v :=
  ⟨answers_of_after (by decide +kernel), answers_of_after (by decide +kernel)⟩

/-- Two different contexts, and one twice. -/
theorem witness_EqualResult : (unitWith hello []).context 0 = some (streamText (fullInit 0) hello) ∧
    (unitWith hello []).context 1 = some (fullInit 5) := ⟨rfl, rfl⟩

/-- "hello" in three pieces, one of them empty. -/
theorem witness_StreamingFoldEqualsHash :
    0 < (unit hello).nctx ∧ ReadAdmitted (unit hello) (0x1000 : Word64).toNat (5 : Word64).toNat ∧ (5 : Word64).toNat ≠ 64 ∧
    (∀ p ∈ ([(0x1000, 2), (0, 0), (0x1002, 3)] : List (Word64 × Word64)), ReadAdmitted (unit hello) p.1.toNat p.2.toNat) ∧
    (([(0x1000, 2), (0, 0), (0x1002, 3)] : List (Word64 × Word64)).map fun p => textAt (unit hello) p.1 p.2).flatten =
      textAt (unit hello) 0x1000 5 := by
  refine ⟨by decide, readAdmitted_of (by decide +kernel), by decide, ?_, by decide +kernel⟩
  intro p hp
  simp only [List.mem_cons, List.not_mem_nil, or_false] at hp
  rcases hp with rfl | rfl | rfl
  · exact readAdmitted_of (by decide +kernel)
  · exact .inl rfl
  · exact readAdmitted_of (by decide +kernel)

/-- 64 bytes in two pieces, and 64 zero bytes. -/
theorem witness_ExceptionAtLength64 :
    (0 < (unit (counting 64)).nctx ∧ ReadAdmitted (unit (counting 64)) (0x1000 : Word64).toNat (64 : Word64).toNat ∧
      (64 : Word64).toNat = 64 ∧
      (∀ p ∈ ([(0x1000, 63), (0x103F, 1)] : List (Word64 × Word64)),
        ReadAdmitted (unit (counting 64)) p.1.toNat p.2.toNat) ∧
      (([(0x1000, 63), (0x103F, 1)] : List (Word64 × Word64)).map fun p => textAt (unit (counting 64)) p.1 p.2).flatten =
        textAt (unit (counting 64)) 0x1000 64) ∧
    (ReadAdmitted (unit (List.replicate 64 0)) (0x1000 : Word64).toNat (64 : Word64).toNat ∧
      textAt (unit (List.replicate 64 0)) 0x1000 64 = List.replicate 64 0) := by
  refine ⟨⟨by decide, readAdmitted_of (by decide +kernel), by decide, ?_, by decide +kernel⟩,
    readAdmitted_of (by decide +kernel), by decide +kernel⟩
  intro p hp
  simp only [List.mem_cons, List.not_mem_nil, or_false] at hp
  rcases hp with rfl | rfl <;> exact readAdmitted_of (by decide +kernel)

/-- The misaligned destination of P4 #5. -/
theorem witness_AnswersExactlyWhenContractKept :
    ¬ (BadContext (.generate 0x4008 5 0) (unit hello) ∨ ContractKept (.generate 0x4008 5 0) (unit hello)) := by
  rintro (⟨c, hc, _⟩ | h | ⟨_, _, h, _⟩)
  · cases hc
  · exact absurd h (by decide)
  · exact absurd h (by decide)

/-- A unit whose host writes the last byte of the text and reads the last byte of the destination. -/
def crowded : State :=
  { unit hello with grant := ⟨[⟨0x1000, 5⟩], [⟨0x4000, 80⟩], [.write 0x1004 0, .read 0x404F]⟩ }

/-- The commands of the statement: two that need no context, and a stream to the context of seed 5. -/
theorem witness_ViolationsAreNamed_commands (ptr len : Word64) : ReadsText crowded ptr len (.byteSum ptr len) ∧
    ReadsText crowded ptr len (.hash ptr len 7) ∧
    ReadsText (unitWith [] hello) ptr len (.hashStateStream 1 ptr len) := by
  refine ⟨⟨rfl, rfl⟩, ⟨rfl, rfl⟩, ?_, rfl, rfl⟩
  unfold HoldsValue
  decide

/-- A witness for each clause: the null pointer; one byte past the end of the address space; one byte past the
readable region, and a byte of it that the host writes; the odd destination; one byte past the writable region, and a
byte of it that the host reads. -/
theorem witness_ViolationsAreNamed :
    ((1 : Word64) ≠ 0 ∧ (0 : Word64) = 0) ∧
    ((2 : Word64) ≠ 0 ∧ (0xFFFFFFFFFFFFFFFF : Word64) ≠ 0 ∧
      2 ^ State.reset.addrW < (0xFFFFFFFFFFFFFFFF : Word64).toNat + (2 : Word64).toNat) ∧
    ((0x1000 : Word64) ≠ 0 ∧ (0x1000 : Word64).toNat + (6 : Word64).toNat ≤ 2 ^ (unit hello).addrW ∧
      ∃ k < (6 : Word64).toNat, regionsCover (unit hello).grant.readable ((0x1000 : Word64).toNat + k) = false) ∧
    ((0x1000 : Word64).toNat + (5 : Word64).toNat ≤ 2 ^ crowded.addrW ∧
      (∀ k < (5 : Word64).toNat, regionsCover crowded.grant.readable ((0x1000 : Word64).toNat + k) = true) ∧
      ¬ NotWrittenByHost crowded (0x1000 : Word64).toNat (5 : Word64).toNat ∧
      (0x4001 : Word64).toNat % crowded.genDstAlign ≠ 0 ∧ (0x4000 : Word64).toNat % crowded.genDstAlign = 0 ∧
      (∃ k < (81 : Word64).toNat, regionsCover crowded.grant.writable ((0x4000 : Word64).toNat + k) = false) ∧
      (∀ k < (80 : Word64).toNat, regionsCover crowded.grant.writable ((0x4000 : Word64).toNat + k) = true) ∧
      ¬ NotTouchedByHost crowded (0x4000 : Word64).toNat (80 : Word64).toNat) := by
  refine ⟨by decide, by decide, ⟨by decide, by decide, 5, by decide, by decide⟩, by decide, by decide, ?_, by decide,
    by decide, ⟨80, by decide, by decide⟩, by decide +kernel, ?_⟩
  · rw [← hostWrote_eq_false_iff]; decide
  · rw [← hostTouched_eq_false_iff]; decide

theorem witness_AbsentContextRefused : 1 < State.reset.nctx ∧ State.reset.context 1 = none ∧
    (0 < ((State.reset).setContext 0 (fullInit 0)).nctx ∧ ((State.reset).setContext 0 (fullInit 0)).context 1 = none) := by
  decide

theorem reset_stateInv : StateInv { State.reset with host := [present ⟨0x0110, 0, 0, 0, 0⟩] } where
  memory_wf := rfl
  memory_in_space := by intro cell h; cases h
  contexts_reached := by
    intro c F h
    have h' : State.reset.context c = some F := h
    rw [State.reset, resetOf_context] at h'
    cases h'

theorem witness_StepKeepsInvariant : StateInv { State.reset with host := [present ⟨0x0110, 0, 0, 0, 0⟩] } ∧
    ∃ t, step { State.reset with host := [present ⟨0x0110, 0, 0, 0, 0⟩] } = .next t :=
  ⟨reset_stateInv, answers_of_after (by decide +kernel)⟩

/-- A context that is written for the first time, and one that already holds a value. -/
theorem witness_OnlyInitAndStreamWriteContexts :
    (∃ t, exec (.hashStateInit 0 7) State.reset = .next t ∧ t.context 0 ≠ State.reset.context 0) ∧
    HoldsValue (unitWith [] hello) 0 := by
  refine ⟨⟨_, rfl, by decide +kernel⟩, by unfold HoldsValue; decide +kernel⟩

theorem witness_OnlyGenerateWritesMemory : ∃ t, exec (.generate 0x4000 17 0) (unit []) = .next t ∧
    readByte t.mem 0x4010 ≠ readByte (unit []).mem 0x4010 := by
  have hw : WriteAdmitted (unit []) (0x4000 : Word64).toNat (17 : Word64).toNat := writeAdmitted_of (by decide +kernel)
  refine ⟨((unit []).setMem (writeBytes (unit []).mem 0x4000 (generatorBytes 0 17))).respondDone, ?_, by decide +kernel⟩
  simp only [exec, execGenerate, (memWrite_eq_ok_iff _ _ _ _ _).mpr ⟨hw, rfl⟩]
  rfl

/-- A memory that differs outside the text of the command; and a `GENERATE` that answers in two memories. -/
theorem witness_ReadsStayInText :
    ((∀ x, inText (.generate 0x4000 17 0) x = true → readByte ([] : Memory) x = readByte (unit hello).mem x) ∧
      (unit hello).mem.wf = true ∧ Memory.wf [] = true ∧ (∃ t, exec (.generate 0x4000 17 0) (unit hello) = .next t) ∧
      ∃ u, exec (.generate 0x4000 17 0) { unit hello with mem := [] } = .next u) ∧
    (∀ x, inText (.hash 0x1000 5 0) x = true → readByte (writeByte (unit hello).mem 0x1005 7) x = readByte (unit hello).mem x) ∧
    readByte (writeByte (unit hello).mem 0x1005 7) 0x1005 ≠ readByte (unit hello).mem 0x1005 := by
  refine ⟨⟨fun x hx => (by cases hx), by decide +kernel, rfl, answers_of_after (by decide +kernel),
    answers_of_after (by decide +kernel)⟩, fun x hx => ?_, by decide +kernel⟩
  rw [readByte_writeByte (by decide +kernel), if_neg]
  rintro rfl
  exact absurd hx (by decide)

theorem witness_CommandsKeepParametersAndPorts : ∃ t, exec (.hashStateInit 0 7) State.reset = .next t := ⟨_, rfl⟩

theorem witness_ContextsShareNothing : 1 ∉ namedContexts (.hashStateStream 0 0x1000 5) := by decide

/-- Two units after reset with different files. -/
theorem witness_TransientFilesUnobservable :
    SameOffTransient State.reset { State.reset with min := minInit 7, work := fullInit 7 } ∧
    (State.reset).min ≠ minInit 7 := ⟨rfl, by decide +kernel⟩

theorem witness_RunAnswersInOrder :
    ∃ t, Sys2Proof.core.run 2 (presented [⟨0x0110, 0, 0, 0, 0⟩, ⟨0x0112, 0, 0, 0, 0⟩]) = .next t :=
  answers_of_after (by decide +kernel)

end Sys2Proof.Tests
end

/-! SUPPORT. Which command words select no row, format by format (30_encoding.md R73, R75). -/

namespace Sys2Proof

/-- A command word without context indices and reserved bits is known by its opcode. -/
theorem eq_iff_opcodeField {p : Word64} (ha : ctxAField p = 0) (hb : ctxBField p = 0) (hr : reservedField p = 0)
    (w : Word64) :
    w = p ↔ opcodeField w = opcodeField p ∧ ctxAField w = 0 ∧ ctxBField w = 0 ∧ reservedField w = 0 := by
  rw [commandWord_ext, ha, hb, hr]

theorem ne_of_opcodeField_ne {w p : Word64} (h : opcodeField w ≠ opcodeField p) : w ≠ p :=
  fun he => h (congrArg opcodeField he)

theorem ne_of_opcodeField_mem {w p : Word64} {ops : List (BitVec 8)} (hw : opcodeField w ∈ ops)
    (hp : opcodeField p ∉ ops) : w ≠ p :=
  ne_of_opcodeField_ne fun he => hp (he ▸ hw)

/-- No row has another opcode than the eight (30_encoding.md R75). -/
theorem selectRow_eq_none_of_opcode {w : Word64}
    (h : opcodeField w ∉ [0x01, 0x02, 0x03, 0x04, 0x10, 0x11, 0x12, 0x13]) : selectRow w = none := by
  simp only [List.mem_cons, List.not_mem_nil, or_false, not_or] at h
  obtain ⟨h1, h2, h3, h4, h10, h11, h12, h13⟩ := h
  rw [selectRow_eq, if_neg (ne_of_opcodeField_ne h1), if_neg (ne_of_opcodeField_ne h2),
    if_neg (ne_of_opcodeField_ne h3), if_neg (ne_of_opcodeField_ne h4)]
  simp only [h10, h11, h12, h13, and_false, if_false]

/-- An opcode of format `B`, `T` or `TS` wants every other field zero. -/
theorem selectRow_eq_none_iff_of_no_context {w : Word64} (h : opcodeField w ∈ [0x01, 0x02, 0x03, 0x04]) :
    selectRow w = none ↔ ctxAField w ≠ 0 ∨ ctxBField w ≠ 0 ∨ reservedField w ≠ 0 := by
  have h1 : w = 0x01 ↔ opcodeField w = 0x01 ∧ _ := eq_iff_opcodeField (by decide) (by decide) (by decide) w
  have h2 : w = 0x02 ↔ opcodeField w = 0x02 ∧ _ := eq_iff_opcodeField (by decide) (by decide) (by decide) w
  have h3 : w = 0x03 ↔ opcodeField w = 0x03 ∧ _ := eq_iff_opcodeField (by decide) (by decide) (by decide) w
  have h4 : w = 0x04 ↔ opcodeField w = 0x04 ∧ _ := eq_iff_opcodeField (by decide) (by decide) (by decide) w
  simp only [List.mem_cons, List.not_mem_nil, or_false] at h
  rcases h with h | h | h | h <;> simp only [selectRow_eq, h1, h2, h3, h4, h] <;> simp [imp_iff_not_or]

/-- An opcode of format `CS`, `CT` or `C` leaves `ctx_a` free. -/
theorem selectRow_eq_none_iff_of_context_a {w : Word64} (h : opcodeField w ∈ [0x10, 0x11, 0x12]) :
    selectRow w = none ↔ ctxBField w ≠ 0 ∨ reservedField w ≠ 0 := by
  rw [selectRow_eq, if_neg (ne_of_opcodeField_mem h (by decide)), if_neg (ne_of_opcodeField_mem h (by decide)),
    if_neg (ne_of_opcodeField_mem h (by decide)), if_neg (ne_of_opcodeField_mem h (by decide))]
  simp only [List.mem_cons, List.not_mem_nil, or_false] at h
  rcases h with h | h | h <;> simp [h, imp_iff_not_or, or_comm]

/-- The opcode of format `CC` leaves both context fields free. -/
theorem selectRow_eq_none_iff_of_contexts {w : Word64} (h : opcodeField w = 0x13) :
    selectRow w = none ↔ reservedField w ≠ 0 := by
  have hmem : opcodeField w ∈ [0x13] := List.mem_singleton.mpr h
  rw [selectRow_eq, if_neg (ne_of_opcodeField_mem hmem (by decide)), if_neg (ne_of_opcodeField_mem hmem (by decide)),
    if_neg (ne_of_opcodeField_mem hmem (by decide)), if_neg (ne_of_opcodeField_mem hmem (by decide))]
  simp [h]

/-- The illegal command words are those R75 lists. -/
theorem selectRow_eq_none_iff_illegal (w : Word64) :
    selectRow w = none ↔
      opcodeField w ∉ [0x01, 0x02, 0x03, 0x04, 0x10, 0x11, 0x12, 0x13] ∨ reservedField w ≠ 0 ∨
      (opcodeField w ∈ [0x01, 0x02, 0x03, 0x04] ∧ ctxAField w ≠ 0) ∨ (opcodeField w ≠ 0x13 ∧ ctxBField w ≠ 0) := by
  have hplain : ∀ op ∈ ([0x01, 0x02, 0x03, 0x04] : List (BitVec 8)), op ≠ 0x13 := by decide
  have hcontext : ∀ op ∈ ([0x10, 0x11, 0x12] : List (BitVec 8)), op ∉ [0x01, 0x02, 0x03, 0x04] ∧ op ≠ 0x13 := by
    decide
  by_cases hop : opcodeField w ∈ [0x01, 0x02, 0x03, 0x04, 0x10, 0x11, 0x12, 0x13]
  · have hformat : opcodeField w ∈ [0x01, 0x02, 0x03, 0x04] ∨ opcodeField w ∈ [0x10, 0x11, 0x12] ∨
        opcodeField w = 0x13 := by simpa [or_assoc] using hop
    rcases hformat with h | h | h
    · have hne := hplain _ h
      rw [selectRow_eq_none_iff_of_no_context h]
      tauto
    · obtain ⟨hnot, hne⟩ := hcontext _ h
      rw [selectRow_eq_none_iff_of_context_a h]
      tauto
    · have hnot : opcodeField w ∉ [0x01, 0x02, 0x03, 0x04] := by rw [h]; decide
      rw [selectRow_eq_none_iff_of_contexts h]
      tauto
  · exact iff_of_true (selectRow_eq_none_of_opcode hop) (.inl hop)

/-- No row is selected exactly when every row of the map rejects the word (30_encoding.md R78). -/
theorem selectRow_eq_none_iff_rows (w : Word64) :
    selectRow w = none ↔ ∀ row ∈ opcodeMap, row.selectedBy w = false := by
  simp [selectRow]

/-- The decoder rejects the descriptors that select no row and no others (30_encoding.md R75, R78). -/
theorem exists_decodeWords_error_iff (d : Descriptor) : (∃ e, decodeWords d = .error e) ↔ selectRow d.w0 = none := by
  cases hrow : selectRow d.w0 with
  | none => simp [decodeWords, hrow]
  | some row => simp [decodeWords, hrow]

end Sys2Proof

/-! SUPPORT. What a step makes of a request by what its five words decode to (30_encoding.md R78): the three cases,
and the one response of each. -/

namespace Sys2Proof.Machine

open Sys2Proof.Safety

/-- A request carries 40 bytes, so the length test of the decoder never rejects it (30_encoding.md R71). -/
theorem decode_request (req : Request) : decode req.descriptor.toList = decodeWords (requestWords req) := by
  simp [decode, requestWords]

theorem step_of_illegal {s : State} {req : Request} {rest : List Request} {e : Reject} (hs : s.host = req :: rest)
    (he : decodeWords (requestWords req) = .error e) :
    step s = .next ((s.accept req rest).respondError .illegalCommand).release := by
  simp only [step, hs, decode_request, he, illegalDescriptor, afterResponse]

theorem step_of_legal {s : State} {req : Request} {rest : List Request} {i : Instr} (hs : s.host = req :: rest)
    (hi : decodeWords (requestWords req) = .ok i) : step s = afterResponse (exec i (s.accept req rest)) := by
  simp only [step, hs, decode_request, hi]

/-- Accepting a command does not change `NCTX`. -/
@[simp] theorem badContext_accept (i : Instr) (s : State) (req : Request) (rest : List Request) :
    BadContext i (s.accept req rest) ↔ BadContext i s := Iff.rfl

/-- The `BAD_CONTEXT` check comes before everything else a command does (30_encoding.md R78, 60_exceptions.md R208). -/
theorem exec_of_badContext {i : Instr} {s : State} (h : BadContext i s) :
    exec i s = .next (s.respondError .badContext) := by
  obtain ⟨c, hc, hn⟩ := h
  cases i with
  | aesRound => cases hc
  | byteSum => cases hc
  | hash => cases hc
  | generate => cases hc
  | hashStateInit a seed =>
    obtain rfl := List.mem_singleton.mp hc
    simp [exec, execHashStateInit, hn]
  | hashStateStream a ptr len =>
    obtain rfl := List.mem_singleton.mp hc
    simp [exec, execHashStateStream, hn]
  | hashStateFold a =>
    obtain rfl := List.mem_singleton.mp hc
    simp [exec, execHashStateFold, hn]
  | hashStateEqual a b =>
    have hor : s.nctx ≤ a ∨ s.nctx ≤ b := by
      rcases List.mem_pair.mp hc with rfl | rfl
      · exact .inl hn
      · exact .inr hn
    simp [exec, execHashStateEqual, hor]

/-- The outcome is one response of status `OK` added to those of `s`, or a refusal (30_encoding.md R78). -/
def RespondsOkOrRefused (s : State) (o : Host.Outcome State Fault Refusal) : Prop :=
  (∃ t v, o = .next t ∧ t.responses = s.responses ++ [⟨.ok, v⟩]) ∨ ∃ r, o = .refused r

theorem respondsOkOrRefused_refused (s : State) (r : Refusal) : RespondsOkOrRefused s (.refused r) := .inr ⟨r, rfl⟩

theorem respondsOkOrRefused_next {s t : State} {v : BitVec 128} (h : t.responses = s.responses ++ [⟨.ok, v⟩]) :
    RespondsOkOrRefused s (.next t) := .inl ⟨t, v, rfl, h⟩

theorem RespondsOkOrRefused.afterResponse {s : State} {o : Host.Outcome State Fault Refusal}
    (h : RespondsOkOrRefused s o) : RespondsOkOrRefused s (afterResponse o) := by
  rcases h with ⟨t, v, rfl, ht⟩ | ⟨r, rfl⟩
  · exact respondsOkOrRefused_next (t := t.release) ht
  · exact respondsOkOrRefused_refused s r

theorem hashText_responses (text : List Byte) (seed : Word64) (s : State) :
    ∃ v, (hashText text seed s).responses = s.responses ++ [⟨.ok, v⟩] := by
  unfold hashText
  split <;> exact ⟨_, rfl⟩

theorem foldContext_responses (F : FullState) (s : State) :
    ∃ v, (foldContext F s).responses = s.responses ++ [⟨.ok, v⟩] := by
  unfold foldContext
  split
  · split <;> exact ⟨_, rfl⟩
  · exact ⟨_, rfl⟩

theorem execHashStateStream_respondsOkOrRefused {a : Nat} {s : State} (ha : ¬ s.nctx ≤ a) (ptr len : Word64) :
    RespondsOkOrRefused s (execHashStateStream a ptr len s) := by
  rw [execHashStateStream, if_neg ha]
  split
  · exact respondsOkOrRefused_refused s _
  · split
    · exact respondsOkOrRefused_refused s _
    · exact respondsOkOrRefused_next rfl

theorem execHashStateFold_respondsOkOrRefused {a : Nat} {s : State} (ha : ¬ s.nctx ≤ a) :
    RespondsOkOrRefused s (execHashStateFold a s) := by
  rw [execHashStateFold, if_neg ha]
  split
  · exact respondsOkOrRefused_refused s _
  · obtain ⟨v, hv⟩ := foldContext_responses _ s
    exact respondsOkOrRefused_next hv

theorem execHashStateEqual_respondsOkOrRefused {a b : Nat} {s : State} (ha : ¬ s.nctx ≤ a) (hb : ¬ s.nctx ≤ b) :
    RespondsOkOrRefused s (execHashStateEqual a b s) := by
  rw [execHashStateEqual, if_neg (not_or.mpr ⟨ha, hb⟩)]
  split
  · exact respondsOkOrRefused_refused s _
  · split
    · exact respondsOkOrRefused_refused s _
    · exact respondsOkOrRefused_next rfl

/-- A command whose context indices are in range runs its own rule (30_encoding.md R78). -/
theorem exec_respondsOkOrRefused {i : Instr} {s : State} (h : ¬ BadContext i s) : RespondsOkOrRefused s (exec i s) := by
  have hin : ∀ c ∈ namedContexts i, ¬ s.nctx ≤ c := fun c hc hn => h ⟨c, hc, hn⟩
  cases i with
  | aesRound X K => exact respondsOkOrRefused_next rfl
  | byteSum ptr len =>
    rw [exec, execByteSum]
    split
    · exact respondsOkOrRefused_refused s _
    · exact respondsOkOrRefused_next rfl
  | hash ptr len seed =>
    rw [exec, execHash]
    split
    · exact respondsOkOrRefused_refused s _
    · obtain ⟨v, hv⟩ := hashText_responses _ seed s
      exact respondsOkOrRefused_next hv
  | generate dst len nonce =>
    rw [exec, execGenerate]
    split
    · exact respondsOkOrRefused_refused s _
    · next t ht =>
      obtain ⟨-, rfl⟩ := (memWrite_eq_ok_iff _ _ _ _ _).mp ht
      exact respondsOkOrRefused_next rfl
  | hashStateInit a seed =>
    rw [exec, execHashStateInit, if_neg (hin a (List.mem_singleton_self a))]
    exact respondsOkOrRefused_next rfl
  | hashStateStream a ptr len =>
    exact execHashStateStream_respondsOkOrRefused (hin a (List.mem_singleton_self a)) ptr len
  | hashStateFold a => exact execHashStateFold_respondsOkOrRefused (hin a (List.mem_singleton_self a))
  | hashStateEqual a b =>
    exact execHashStateEqual_respondsOkOrRefused (hin a List.mem_cons_self)
      (hin b (List.mem_cons_of_mem a (List.mem_singleton_self b)))

theorem step_of_badContext {s : State} {req : Request} {rest : List Request} {i : Instr} (hs : s.host = req :: rest)
    (hi : decodeWords (requestWords req) = .ok i) (hbad : BadContext i s) :
    step s = .next ((s.accept req rest).respondError .badContext).release := by
  rw [step_of_legal hs hi, exec_of_badContext ((badContext_accept i s req rest).mpr hbad), afterResponse]

theorem step_respondsOkOrRefused {s : State} {req : Request} {rest : List Request} {i : Instr}
    (hs : s.host = req :: rest) (hi : decodeWords (requestWords req) = .ok i) (hin : ¬ BadContext i s) :
    RespondsOkOrRefused s (step s) := by
  rw [step_of_legal hs hi]
  exact (exec_respondsOkOrRefused (mt (badContext_accept i s req rest).mp hin)).afterResponse

/-- The one response of a step that answers, in the three cases of R78. -/
theorem step_response {s t : State} {req : Request} {rest : List Request} (hs : s.host = req :: rest)
    (ht : step s = .next t) :
    (∃ e, decodeWords (requestWords req) = .error e ∧ t.responses = s.responses ++ [⟨.illegalCommand, 0⟩]) ∨
    (∃ i, decodeWords (requestWords req) = .ok i ∧ BadContext i s ∧
      t.responses = s.responses ++ [⟨.badContext, 0⟩]) ∨
    (∃ i v, decodeWords (requestWords req) = .ok i ∧ ¬ BadContext i s ∧ t.responses = s.responses ++ [⟨.ok, v⟩]) := by
  cases hd : decodeWords (requestWords req) with
  | error e =>
    obtain rfl := Host.Outcome.next.inj ((step_of_illegal hs hd).symm.trans ht)
    exact .inl ⟨e, rfl, rfl⟩
  | ok i =>
    by_cases hbad : BadContext i s
    · obtain rfl := Host.Outcome.next.inj ((step_of_badContext hs hd hbad).symm.trans ht)
      exact .inr (.inl ⟨i, rfl, hbad, rfl⟩)
    · rcases step_respondsOkOrRefused hs hd hbad with ⟨u, v, hu, hv⟩ | ⟨r, hr⟩
      · obtain rfl := Host.Outcome.next.inj (hu.symm.trans ht)
        exact .inr (.inr ⟨i, v, rfl, hbad, hv⟩)
      · cases hr.symm.trans ht

end Sys2Proof.Machine

/-! The obligations of the family 30_encoding.md: illegal descriptors, decode and dispatch, the status of a response. -/

namespace Sys2Proof.Proofs

open Sys2Proof.Machine Sys2Proof.Safety

/-- Settles O3: a descriptor is rejected when its command word selects no row, and the fields tell when that is. -/
theorem illegalDescriptors : Obligations.IllegalDescriptors := by
  refine ⟨fun d => ?_, fun s req rest e hs he => ?_⟩
  · rw [exists_decodeWords_error_iff, selectRow_eq_none_iff_illegal]
  · exact ⟨_, step_of_illegal hs he, rfl⟩

/-- Settles O5: the three cases of R78, one step lemma each. -/
theorem decodeAndDispatch : Obligations.DecodeAndDispatch := by
  intro s req rest hs
  refine ⟨fun hrows => ?_, fun i hi hbad => step_of_badContext hs hi hbad, fun i hi hin => ?_⟩
  · obtain ⟨e, he⟩ := (exists_decodeWords_error_iff _).mpr ((selectRow_eq_none_iff_rows _).mpr hrows)
    exact step_of_illegal hs he
  · exact ⟨step_of_legal hs hi, step_respondsOkOrRefused hs hi hin⟩

/-- Settles O6: the three cases of R78 exclude each other, so the status tells which one held. -/
theorem statusOfResponse : Obligations.StatusOfResponse := by
  refine ⟨rfl, rfl, rfl, fun s t req rest hs ht => ?_⟩
  rcases step_response hs ht with ⟨e, he, hr⟩ | ⟨i, hi, hbad, hr⟩ | ⟨i, v, hi, hin, hr⟩
  · exact ⟨_, hr, by simp [he]⟩
  · exact ⟨_, hr, by simp [hi, hbad]⟩
  · exact ⟨_, hr, by simp [hi, hin]⟩

end Sys2Proof.Proofs

/-! SUPPORT. `AES_ROUND` from descriptor to response (40_aes_round.md R99). -/

namespace Sys2Proof

/-- The command word `0x01` selects `AES_ROUND`, whatever the operand words are (30_encoding.md R73, R74). -/
theorem decodeWords_of_aesRoundWord {d : Descriptor} (h : d.w0 = 0x01) :
    decodeWords d = .ok (.aesRound (blockOfHalves d.w1 d.w2) (blockOfHalves d.w3 d.w4)) := by
  have hrow : selectRow d.w0 = some ⟨.aesRound, 0xFFFFFFFFFFFFFFFF, 0x01⟩ := by rw [selectRow_eq, if_pos h]
  simp only [decodeWords, hrow, assemble]

/-- The integer of a block, by its halves (00_scope.md R11). -/
theorem toNat_eq_halves (X : Block128) : X.toNat = (lowHalf X).toNat + 2 ^ 64 * (highHalf X).toNat := by
  rw [← toNat_blockOfHalves, blockOfHalves_halves]

end Sys2Proof

namespace Sys2Proof.Machine

/-- `AES_ROUND` tests nothing and reads nothing: it responds (40_aes_round.md R99). -/
theorem exec_aesRound (X K : Block128) (s : State) : exec (.aesRound X K) s = .next (s.respond .ok (aesRound X K)) := rfl

/-- The AESENC example of 40_aes_round.md R99, its operands given by their halves. -/
theorem aesRound_workedExample :
    aesRound (blockOfHalves 0x63746f725d53475d 0x7b5b546573745665)
      (blockOfHalves 0x5b477565726f6e5d 0x4869285368617929) = 0xa8311c2f9fdba3c58b104b58ded7e595 := by
  decide +kernel

end Sys2Proof.Machine

/-! The obligation of the family 40_aes_round.md about the command. -/

namespace Sys2Proof.Proofs

open Sys2Proof.Machine

/-- Settles O15: one lemma each for decoding, the response, the halves of a block and the worked example. -/
theorem aesRoundResult : Obligations.AesRoundResult := by
  refine ⟨fun d hd => decodeWords_of_aesRoundWord hd, fun X K s => ?_, toNat_eq_halves, aesRound_workedExample⟩
  rw [exec_aesRound, State.respond]

end Sys2Proof.Proofs

/-! SUPPORT. `add64x2` and `shr_bytes` as integer operations (41_block_primitives.md R113, R114). -/

namespace Sys2Proof.Machine

/-- Shifting the 128-bit integer right by `8 k` bits moves byte `i + k` to byte `i` (00_scope.md R11). -/
theorem blockByte_ushiftRight (X : Block128) (k i : Nat) : blockByte (X >>> (8 * k)) i = blockByte X (i + k) := by
  apply BitVec.eq_of_getLsbD_eq
  intro j hj
  have hbit : 8 * k + (8 * i + j) = 8 * (i + k) + j := by omega
  rw [getLsbD_blockByte _ _ _ hj, getLsbD_blockByte _ _ _ hj, BitVec.getLsbD_ushiftRight, hbit]

/-- A block has no byte past byte 15: what is read there is zero. -/
theorem blockByte_of_le {i : Nat} (hi : 16 ≤ i) (X : Block128) : blockByte X i = 0 := by
  apply BitVec.eq_of_getLsbD_eq
  intro j hj
  rw [getLsbD_blockByte _ _ _ hj, BitVec.getLsbD_of_ge _ _ (by omega)]
  exact BitVec.getLsbD_zero.symm

/-- The byte form of `shr_bytes` is the shift of the integer (R114); no bound on `k` is needed. -/
theorem shrBytes_eq_ushiftRight (X : Block128) (k : Nat) : shrBytes X k = X >>> (8 * k) := by
  apply block_ext
  intro i hi
  rw [blockByte_shrBytes X k i hi, blockByte_ushiftRight]
  split
  · rfl
  · exact (blockByte_of_le (by omega) X).symm

/-- "Shifting by zero is a no-op" (R114). -/
theorem shrBytes_zero (X : Block128) : shrBytes X 0 = X := by
  rw [shrBytes_eq_ushiftRight, Nat.mul_zero, BitVec.ushiftRight_zero]

/-- "Shifting by 16 yields zero" (R114). -/
theorem shrBytes_sixteen (X : Block128) : shrBytes X 16 = 0 := by
  rw [shrBytes_eq_ushiftRight]
  exact BitVec.ushiftRight_eq_zero (by decide)

/-- The worked example of R114. -/
theorem shrBytes_workedExample :
    shrBytes (blockOfBytes [0x10, 0x11, 0x12, 0x13, 0x14, 0x15, 0x16, 0x17, 0x18, 0x19, 0x1a, 0x1b, 0x1c, 0x1d, 0x1e, 0x1f]) 1 =
      blockOfBytes [0x11, 0x12, 0x13, 0x14, 0x15, 0x16, 0x17, 0x18, 0x19, 0x1a, 0x1b, 0x1c, 0x1d, 0x1e, 0x1f, 0x00] ∧
    shrBytes (blockOfBytes [0x10, 0x11, 0x12, 0x13, 0x14, 0x15, 0x16, 0x17, 0x18, 0x19, 0x1a, 0x1b, 0x1c, 0x1d, 0x1e, 0x1f]) 15 =
      blockOfBytes [0x1f] := by
  decide +kernel

/-- The worked example of R113: both halves wrap, and the carry of the low one is lost. -/
theorem add64x2_workedExample :
    add64x2 (blockOfHalves 0xFFFFFFFFFFFFFFFF 0x8000000000000000) (blockOfHalves 1 0x8000000000000001) =
      blockOfHalves 0 1 := by
  simp [add64x2]

end Sys2Proof.Machine

/-! The obligations of the family 41_block_primitives.md about `shr_bytes` and `add64x2`. -/

namespace Sys2Proof.Proofs

open Sys2Proof.Machine

/-- Settles O18: the shift of the integer, its bytes, the two boundary shifts and the worked example. -/
theorem shrBytesIsRightShift : Obligations.ShrBytesIsRightShift :=
  ⟨fun X k _ => ⟨shrBytes_eq_ushiftRight X k, blockByte_shrBytes X k⟩,
    fun X => ⟨shrBytes_zero X, shrBytes_sixteen X⟩, shrBytes_workedExample⟩

/-- Settles O17: the halves of the sum are the sums of the halves, and a word's sum wraps modulo `2 ^ 64`. -/
theorem laneAddWrapsPerHalf : Obligations.LaneAddWrapsPerHalf := by
  refine ⟨fun X Y => ⟨?_, ?_⟩, add64x2_workedExample⟩
  · rw [lowHalf_add64x2, BitVec.toNat_add]
  · rw [highHalf_add64x2, BitVec.toNat_add]

end Sys2Proof.Proofs

/-! SUPPORT. The end common to both finalizations (42_minimal_state.md R128, 43_full_state.md R138): the key with the
length added to its low half, and the low half of the last round. -/

namespace Sys2Proof.Machine

/-- The key of R128 is known by its halves: the low one wraps modulo `2 ^ 64`, the high one is that of the key. -/
theorem eq_blockOfHalves_add {key key' : Block128} {length : Word64}
    (hlow : (lowHalf key').toNat = ((lowHalf key).toNat + length.toNat) % 2 ^ 64)
    (hhigh : highHalf key' = highHalf key) : key' = blockOfHalves (lowHalf key + length) (highHalf key) := by
  have hsum : lowHalf key' = lowHalf key + length := BitVec.eq_of_toNat_eq (by rw [hlow, BitVec.toNat_add])
  rw [← hsum, ← hhigh, blockOfHalves_halves]

/-- Adding the length 0 leaves the key as it is. -/
theorem blockOfHalves_add_zero (key : Block128) : blockOfHalves (lowHalf key + 0) (highHalf key) = key := by
  have hzero : lowHalf key + 0 = lowHalf key := BitVec.add_zero _
  rw [hzero, blockOfHalves_halves]

/-- Two rounds from the mixed block `m`, with `key'` and with `m` as round keys; the low 64 bits are the result. -/
theorem toNat_finish {key key' : Block128} {length : Word64}
    (hlow : (lowHalf key').toNat = ((lowHalf key).toNat + length.toNat) % 2 ^ 64)
    (hhigh : highHalf key' = highHalf key) (m : Block128) :
    (finish key m length).toNat = (aesRound (aesRound m key') m).toNat % 2 ^ 64 := by
  rw [finish, ← eq_blockOfHalves_add hlow hhigh, toNat_lowHalf]

/-- `FULL.FINALIZE` does not read the staging buffer (43_full_state.md R138). -/
@[simp] theorem fullFinalize_with_ins (X : FullState) (r : Reg512) : fullFinalize { X with ins := r } = fullFinalize X := rfl

/-- The hash of the five bytes of `hello` with seed 0. -/
theorem minFinalize_workedExample :
    minFinalize (minAbsorb (minInit 0) (blockOfBytes [0x68, 0x65, 0x6c, 0x6c, 0x6f])) 5 = 0x24A8B11B9B4CF7BA := by
  decide +kernel

end Sys2Proof.Machine

/-! The obligation of the family 42_minimal_state.md about the two finalizations. -/

namespace Sys2Proof.Proofs

open Sys2Proof.Machine

/-- Settles O22: both finalizations are `finish` of their mixed block, which fixes the key by its halves. -/
theorem finalizeFormulas : Obligations.FinalizeFormulas := by
  refine ⟨fun key' M length hlow hhigh => ⟨?_, ?_⟩, minFinalize_workedExample, fun key' X hlow hhigh => ?_,
    fullFinalize_with_ins⟩
  · rw [minFinalize, toNat_finish hlow hhigh]
  · rintro rfl
    exact (eq_blockOfHalves_add hlow hhigh).trans (blockOfHalves_add_zero M.key)
  · exact toNat_finish hlow hhigh _

end Sys2Proof.Proofs

/-! SUPPORT. What a context holds after `HASH_STATE_INIT` and the bytes streamed since (10_state.md R33): the absorbed
chunks, the staged tail with zeros above it, and the counter. -/

namespace Sys2Proof.Machine

@[simp] theorem loadChunk_zero (text : List Byte) (off : Nat) : loadChunk text off 0 = Reg512.zero := by
  apply Reg512.ext_bytes
  intro j hj
  simp [Reg512.byte_loadChunk _ _ _ _ hj]

/-- A chunk that lies in the text does not see what follows the text. -/
theorem loadChunk_append_of_le {text : List Byte} {off n : Nat} (h : off + n ≤ text.length) (more : List Byte) :
    loadChunk (text ++ more) off n = loadChunk text off n := by
  have hbytes : ((text ++ more).drop off).take n = (text.drop off).take n := by
    rw [List.drop_append_of_le_length (by omega), List.take_append_of_le_length (by rw [List.length_drop]; omega)]
  simp only [loadChunk, hbytes]

/-- Staging the next byte of a text is loading the tail that ends with it (45_streaming_hash.md R167). -/
theorem setByte_loadChunk {text : List Byte} {off n : Nat} (h : off + n = text.length) (b : Byte) :
    (loadChunk text off n).setByte n b = loadChunk (text ++ [b]) off (n + 1) := by
  apply Reg512.ext_bytes
  intro j hj
  rw [Reg512.byte_setByte _ _ _ _ hj, Reg512.byte_loadChunk _ _ _ _ hj, Reg512.byte_loadChunk _ _ _ _ hj]
  rcases Nat.lt_trichotomy j n with hlt | rfl | hgt
  · rw [if_neg (by omega), if_pos hlt, if_pos (by omega), List.getD_append _ _ _ _ (by omega)]
  · rw [if_pos rfl, if_pos (by omega), h, List.getD_append_right _ _ _ _ (le_refl _), Nat.sub_self, List.getD_cons_zero]
  · rw [if_neg (by omega), if_neg (by omega), if_neg (by omega)]

/-- A text that fits the staging buffer is read back from it (10_state.md R23). -/
theorem take_bytes_loadChunk {text : List Byte} (h : text.length ≤ 64) :
    (loadChunk text 0 text.length).bytes.take text.length = text := by
  refine List.ext_getElem (by simp [h]) fun j _ hj => ?_
  simp [Reg512.bytes, Reg512.byte_loadChunk _ _ _ j (by omega), hj]

/-- The register file after the first `k` chunks of a text (44_single_shot_hash.md R154). -/
def absorbChunks (W : FullState) (text : List Byte) (k : Nat) : FullState :=
  (List.range k).foldl (fun W q => absorbChunk W (loadChunk text (64 * q) 64)) W

@[simp] theorem absorbChunks_zero (W : FullState) (text : List Byte) : absorbChunks W text 0 = W := rfl

theorem absorbChunks_succ (W : FullState) (text : List Byte) (k : Nat) :
    absorbChunks W text (k + 1) = absorbChunk (absorbChunks W text k) (loadChunk text (64 * k) 64) := by
  simp [absorbChunks, List.range_succ]

/-- Whole chunks of a text do not see what follows the text. -/
theorem absorbChunks_append (W : FullState) {text : List Byte} (more : List Byte) {k : Nat}
    (h : 64 * k ≤ text.length) : absorbChunks W (text ++ more) k = absorbChunks W text k := by
  induction k with
  | zero => rfl
  | succ k ih => rw [absorbChunks_succ, absorbChunks_succ, ih (by omega), loadChunk_append_of_le (by omega)]

/-- The context that 10_state.md R33 describes: chains that have absorbed the whole chunks, the rest of the text staged,
and the number of bytes modulo `2 ^ 64`. -/
def streamedContext (seed : Word64) (text : List Byte) : FullState :=
  { absorbChunks (fullInit seed) text (text.length / 64) with
    ins := loadChunk text (64 * (text.length / 64)) (text.length % 64)
    insLength := BitVec.ofNat 64 text.length }

@[simp] theorem streamedContext_insLength (seed : Word64) (text : List Byte) :
    (streamedContext seed text).insLength = BitVec.ofNat 64 text.length := rfl

@[simp] theorem streamedContext_ins (seed : Word64) (text : List Byte) :
    (streamedContext seed text).ins = loadChunk text (64 * (text.length / 64)) (text.length % 64) := rfl

/-- 64 divides `2 ^ 64`, so the fill level is right for a text of any length (45_streaming_hash.md R174). -/
@[simp] theorem fillLevel_streamedContext (seed : Word64) (text : List Byte) :
    fillLevel (streamedContext seed text) = text.length % 64 := by
  rw [fillLevel, streamedContext_insLength, BitVec.toNat_ofNat]
  omega

/-- While a byte does not fill the buffer, it only joins the staged tail. -/
theorem streamedContext_concat_of_not_full {text : List Byte} (h : text.length % 64 ≠ 63) (seed : Word64) (b : Byte) :
    streamedContext seed (text ++ [b]) =
      { streamedContext seed text with
        ins := (streamedContext seed text).ins.setByte (text.length % 64) b
        insLength := (streamedContext seed text).insLength + 1 } := by
  have hlen : (text ++ [b]).length = text.length + 1 := List.length_append
  have hdiv : (text.length + 1) / 64 = text.length / 64 := by omega
  have hmod : (text.length + 1) % 64 = text.length % 64 + 1 := by omega
  rw [streamedContext_ins, setByte_loadChunk (Nat.div_add_mod _ _), streamedContext_insLength]
  simp only [streamedContext, hlen, hdiv, hmod, BitVec.ofNat_add]
  rw [absorbChunks_append _ _ (Nat.mul_div_le _ _)]
  rfl

/-- The byte that fills the buffer completes a chunk, which is absorbed, and nothing stays staged. -/
theorem streamedContext_concat_of_full {text : List Byte} (h : text.length % 64 = 63) (seed : Word64) (b : Byte) :
    streamedContext seed (text ++ [b]) =
      { fullAbsorb64 { streamedContext seed text with
          ins := (streamedContext seed text).ins.setByte 63 b
          insLength := (streamedContext seed text).insLength + 1 } with ins := Reg512.zero } := by
  have hlen : (text ++ [b]).length = text.length + 1 := List.length_append
  have hdiv : (text.length + 1) / 64 = text.length / 64 + 1 := by omega
  have hmod : (text.length + 1) % 64 = 0 := by omega
  rw [streamedContext_ins, h, setByte_loadChunk (by omega), streamedContext_insLength]
  simp only [streamedContext, hlen, hdiv, hmod, BitVec.ofNat_add, absorbChunks_succ, loadChunk_zero]
  rw [absorbChunks_append _ _ (Nat.mul_div_le _ _)]
  rfl

/-- Streaming a text of any length into a fresh context makes the context of R33. -/
theorem streamText_fullInit (seed : Word64) (text : List Byte) :
    streamText (fullInit seed) text = streamedContext seed text := by
  induction text using List.reverseRecOn with
  | nil => rfl
  | append_singleton text b ih =>
    rw [streamText_append, ih, streamText_cons, streamText_nil]
    by_cases h : text.length % 64 = 63
    · rw [streamByte_of_full (by rwa [fillLevel_streamedContext]), streamedContext_concat_of_full h]
    · rw [streamByte_of_not_full (by rwa [fillLevel_streamedContext]), streamedContext_concat_of_not_full h,
        fillLevel_streamedContext]

end Sys2Proof.Machine

/-! SUPPORT. The value of a fold of such a context, below, at and above 64 bytes, against the value of `HASH`
(45_streaming_hash.md R168, R170, R171). -/

namespace Sys2Proof.Machine

/-- The minimal file of a short fold starts where `HASH` starts: lane 0 of `FULL.INIT` is `MIN.INIT` (42_minimal_state.md
R126, R129). -/
theorem minFromFull_streamedContext {text : List Byte} (h : text.length < 64) (seed : Word64) :
    minFromFull (streamedContext seed text) = minInit seed := by
  rw [streamedContext, Nat.div_eq_of_lt h]
  rfl

theorem stagedText_streamedContext {text : List Byte} (h : text.length < 64) (seed : Word64) :
    stagedText (streamedContext seed text) = text := by
  rw [stagedText, streamedContext_ins, streamedContext_insLength, BitVec.toNat_ofNat, Nat.mod_eq_of_lt (by omega),
    Nat.div_eq_of_lt h, Nat.mod_eq_of_lt h]
  exact take_bytes_loadChunk (by omega)

/-- Below 64 bytes fold and `HASH` absorb the same blocks into the same file. -/
theorem foldValue_streamedContext_of_lt {text : List Byte} (h : text.length < 64) (seed : Word64) :
    foldValue (streamedContext seed text) = hashValue text seed := by
  have hshort : ¬ 64 ≤ (streamedContext seed text).insLength.toNat := by
    rw [streamedContext_insLength, BitVec.toNat_ofNat]
    omega
  rw [foldValue, if_neg hshort, foldMinFile, minFromFull_streamedContext h, stagedText_streamedContext h, hashValue,
    if_pos h.le, streamedContext_insLength, shortHashFile]

/-- The long branch of a fold: a staged tail is absorbed as it stands. -/
theorem foldValue_streamedContext_of_ge {text : List Byte} (h : 64 ≤ text.length) (hwrap : text.length < 2 ^ 64)
    (seed : Word64) :
    foldValue (streamedContext seed text) =
      if 0 < text.length % 64 then fullFinalize (fullAbsorb64 (streamedContext seed text))
      else fullFinalize (streamedContext seed text) := by
  have hlong : 64 ≤ (streamedContext seed text).insLength.toNat := by
    rwa [streamedContext_insLength, BitVec.toNat_ofNat, Nat.mod_eq_of_lt hwrap]
  rw [foldValue, if_pos hlong, fillLevel_streamedContext]

/-- The working file of `HASH` above 64 bytes, by its whole chunks and its tail (44_single_shot_hash.md R154). -/
theorem longHashFile_eq (text : List Byte) (seed : Word64) :
    longHashFile text seed =
      { (if 0 < text.length % 64 then
          absorbChunk (absorbChunks (fullInit seed) text (text.length / 64))
            (loadChunk text (64 * (text.length / 64)) (text.length % 64))
        else absorbChunks (fullInit seed) text (text.length / 64)) with
        insLength := BitVec.ofNat 64 text.length } := by
  have hoff : 64 * (text.length / 64) = text.length - text.length % 64 := by omega
  rw [hoff]
  rfl

/-- Above 64 bytes the files of fold and `HASH` differ in the staging buffer only, which no finalization reads. -/
theorem foldValue_streamedContext_of_gt {text : List Byte} (h : 64 < text.length) (hwrap : text.length < 2 ^ 64)
    (seed : Word64) : foldValue (streamedContext seed text) = hashValue text seed := by
  rw [foldValue_streamedContext_of_ge h.le hwrap, hashValue, if_neg (Nat.not_le.mpr h), longHashFile_eq]
  split <;> rfl

/-- The law of R170 on values: only the length 64 is left out. -/
theorem foldValue_streamedContext {text : List Byte} (h : text.length ≠ 64) (hwrap : text.length < 2 ^ 64)
    (seed : Word64) : foldValue (streamedContext seed text) = hashValue text seed := by
  rcases Nat.lt_or_gt_of_ne h with hlt | hgt
  · exact foldValue_streamedContext_of_lt hlt seed
  · exact foldValue_streamedContext_of_gt hgt hwrap seed

/-- At length 64 a fold finalizes the full state after one chunk (45_streaming_hash.md R171). -/
theorem foldValue_streamedContext_of_eq {text : List Byte} (h : text.length = 64) (seed : Word64) :
    foldValue (streamedContext seed text) =
      fullFinalize { fullAbsorb64 { fullInit seed with ins := loadChunk text 0 64 } with insLength := 64 } := by
  rw [foldValue_streamedContext_of_ge (by omega) (by omega), if_neg (by omega), streamedContext, h]
  rfl

/-- At length 64 `HASH` finalizes the minimal state after four blocks (45_streaming_hash.md R171). -/
theorem hashValue_of_length_eq {text : List Byte} (h : text.length = 64) (seed : Word64) :
    hashValue text seed = minFinalize ((blocks text).foldl minAbsorb (minInit seed)) 64 := by
  rw [hashValue, if_pos h.le, h]
  rfl

/-- The worked example of R171. -/
theorem values_of_zeros :
    hashValue (List.replicate 64 0) 0 = 0xF4734D788A645D8C ∧
    foldValue (streamedContext 0 (List.replicate 64 0)) = 0xC35B18E505A11E5C := by
  decide +kernel

end Sys2Proof.Machine

/-! SUPPORT. The commands of a streamed hash, when their operands are admitted, and a run of them
(45_streaming_hash.md R166 to R168). -/

namespace Sys2Proof.Machine

open Sys2Proof.Safety

@[simp] theorem lastResponse_respondWord (s : State) (w : Word64) :
    lastResponse (s.respondWord w) = some ⟨.ok, w.setWidth 128⟩ := by
  simp [lastResponse]

theorem lastResponse_hashText (text : List Byte) (seed : Word64) (s : State) :
    lastResponse (hashText text seed s) = some ⟨.ok, (hashValue text seed).setWidth 128⟩ := by
  unfold hashText hashValue
  split <;> exact lastResponse_respondWord _ _

theorem lastResponse_foldContext (F : FullState) (s : State) :
    lastResponse (foldContext F s) = some ⟨.ok, (foldValue F).setWidth 128⟩ := by
  unfold foldContext foldValue
  split
  · split <;> exact lastResponse_respondWord _ _
  · exact lastResponse_respondWord _ _

/-- A fold writes no context (45_streaming_hash.md R168). -/
@[simp] theorem foldContext_context (F : FullState) (s : State) (c : Nat) :
    (foldContext F s).context c = s.context c := by
  unfold foldContext
  split
  · split <;> rfl
  · rfl

theorem exec_hash_of_admitted {s : State} {ptr len : Word64} (h : ReadAdmitted s ptr.toNat len.toNat) (seed : Word64) :
    exec (.hash ptr len seed) s = .next (hashText (textAt s ptr len) seed s) := by
  simp only [exec, execHash, textOperand_of_admitted h]

theorem exec_hashStateInit_of_lt {s : State} {a : Nat} (h : a < s.nctx) (seed : Word64) :
    exec (.hashStateInit a seed) s = .next (s.setContext a (fullInit seed)).respondDone := by
  rw [exec, execHashStateInit, if_neg (Nat.not_le.mpr h)]

theorem exec_hashStateStream_of_admitted {s : State} {a : Nat} {F : FullState} {ptr len : Word64}
    (hF : s.context a = some F) (h : ReadAdmitted s ptr.toNat len.toNat) :
    exec (.hashStateStream a ptr len) s =
      .next (s.setContext a (streamText F (textAt s ptr len))).respondDone := by
  simp only [exec, execHashStateStream, if_neg (Nat.not_le.mpr (lt_nctx_of_context hF)),
    (contextOperand_eq_ok_iff s a F).mpr hF, textOperand_of_admitted h]

theorem exec_hashStateFold_of_context {s : State} {a : Nat} {F : FullState} (hF : s.context a = some F) :
    exec (.hashStateFold a) s = .next (foldContext F s) := by
  simp only [exec, execHashStateFold, if_neg (Nat.not_le.mpr (lt_nctx_of_context hF)),
    (contextOperand_eq_ok_iff s a F).mpr hF]

theorem runCommands_cons_of_next {i : Instr} {s t : State} (h : exec i s = .next t) (rest : List Instr) :
    runCommands (i :: rest) s = runCommands rest t := by
  simp only [runCommands, h]

theorem runCommands_singleton_of_next {i : Instr} {s t : State} (h : exec i s = .next t) :
    runCommands [i] s = .next t := runCommands_cons_of_next h []

theorem runCommands_append_of_next {is : List Instr} {s t : State} (h : runCommands is s = .next t)
    (rest : List Instr) : runCommands (is ++ rest) s = runCommands rest t := by
  induction is generalizing s with
  | nil => cases h; rfl
  | cons i is ih =>
    cases hi : exec i s with
    | next u =>
      rw [runCommands_cons_of_next hi] at h
      rw [List.cons_append, runCommands_cons_of_next hi, ih h]
    | fault f => cases f
    | refused r => simp [runCommands, hi] at h

/-- Streaming pieces one after the other streams their concatenation: a stream changes neither the memory nor the
grant, so every piece is read as it stands at the start (45_streaming_hash.md R167). -/
theorem runCommands_streams (a : Nat) (pieces : List (Word64 × Word64)) {s : State} {F : FullState}
    (hF : s.context a = some F) (hread : ∀ p ∈ pieces, ReadAdmitted s p.1.toNat p.2.toNat) :
    ∃ t, runCommands (pieces.map fun p => .hashStateStream a p.1 p.2) s = .next t ∧
      t.context a = some (streamText F (pieces.map fun p => textAt s p.1 p.2).flatten) := by
  induction pieces generalizing s F with
  | nil => exact ⟨s, rfl, hF⟩
  | cons p pieces ih =>
    have hp := hread p List.mem_cons_self
    have hu : (s.setContext a (streamText F (textAt s p.1 p.2))).respondDone.context a =
        some (streamText F (textAt s p.1 p.2)) := s.setContext_context_self _ (lt_nctx_of_context hF)
    obtain ⟨t, hrun, ht⟩ := ih hu fun q hq => hread q (List.mem_cons_of_mem p hq)
    refine ⟨t, ?_, ?_⟩
    · rw [List.map_cons, runCommands_cons_of_next (exec_hashStateStream_of_admitted hF hp)]
      exact hrun
    · rw [List.map_cons, List.flatten_cons, streamText_append]
      exact ht

/-- Init, a stream for each piece and fold end in the fold of the context that R33 describes for the whole text. -/
theorem runCommands_init_streams_fold {s : State} {a : Nat} (ha : a < s.nctx) (seed : Word64)
    {pieces : List (Word64 × Word64)} (hread : ∀ p ∈ pieces, ReadAdmitted s p.1.toNat p.2.toNat) {text : List Byte}
    (htext : (pieces.map fun p => textAt s p.1 p.2).flatten = text) :
    ∃ u, runCommands (.hashStateInit a seed :: pieces.map (fun p => .hashStateStream a p.1 p.2) ++ [.hashStateFold a]) s =
        .next (foldContext (streamedContext seed text) u) ∧
      u.context a = some (streamedContext seed text) := by
  have hinit : (s.setContext a (fullInit seed)).respondDone.context a = some (fullInit seed) :=
    s.setContext_context_self _ ha
  obtain ⟨u, hrun, hu⟩ := runCommands_streams a pieces hinit hread
  have hctx : u.context a = some (streamedContext seed text) := by
    rw [hu, streamText_fullInit, ← htext]
    rfl
  refine ⟨u, ?_, hctx⟩
  rw [List.cons_append, runCommands_cons_of_next (exec_hashStateInit_of_lt ha seed), runCommands_append_of_next hrun,
    runCommands_singleton_of_next (exec_hashStateFold_of_context hctx)]

end Sys2Proof.Machine

/-! The obligations of the family 45_streaming_hash.md: the streaming law, and the exception at length 64. -/

namespace Sys2Proof.Proofs

open Sys2Proof.Machine Sys2Proof.Safety

/-- Settles O38: the run folds the context of the whole text, and at every length but 64 that fold has the value of
`HASH`. -/
theorem streamingFoldEqualsHash : Obligations.StreamingFoldEqualsHash := by
  intro s a seed ptr len pieces ha hadm hlen hread htext
  obtain ⟨u, hrun, -⟩ := runCommands_init_streams_fold ha seed hread htext
  have hne : (textAt s ptr len).length ≠ 64 := by rwa [textAt_length]
  have hwrap : (textAt s ptr len).length < 2 ^ 64 := by rw [textAt_length]; exact len.isLt
  refine ⟨_, _, exec_hash_of_admitted hadm seed, hrun, ?_⟩
  rw [lastResponse_foldContext, lastResponse_hashText, foldValue_streamedContext hne hwrap]

/-- Settles O39: the same run and the same `HASH`, with the two values at length 64 and the worked example of R171. -/
theorem exceptionAtLength64 : Obligations.ExceptionAtLength64 := by
  intro s a seed ptr len pieces ha hadm hlen hread htext text
  obtain ⟨u, hrun, hctx⟩ := runCommands_init_streams_fold ha seed hread htext
  have h64 : text.length = 64 := (textAt_length s ptr len).trans hlen
  have hhash := lastResponse_hashText text seed s
  have hfold := lastResponse_foldContext (streamedContext seed text) u
  refine ⟨_, _, streamedContext seed text, exec_hash_of_admitted hadm seed, ?_, hrun, ?_, ?_, ?_, ?_, ?_⟩
  · rw [hhash, hashValue_of_length_eq h64]
  · rw [hfold, foldValue_streamedContext_of_eq h64]
  · rw [foldContext_context, hctx]
  · rw [streamedContext_ins, h64, loadChunk_zero]
  · rw [streamedContext_insLength, h64]
    rfl
  · intro hseed hzeros
    obtain ⟨hhash0, hfold0⟩ := values_of_zeros
    rw [hhash, hfold, hseed, hzeros, hhash0, hfold0]
    exact ⟨rfl, rfl⟩

end Sys2Proof.Proofs

/-! SUPPORT. The byte sum as a number, and `BYTESUM` on an admitted text (46_bytesum.md R191). -/

namespace Sys2Proof.Machine

open Sys2Proof.Safety

/-- From any accumulator, the one generalization the induction on the text needs. -/
theorem foldl_add_byte_toNat (text : List Byte) (acc : Word64) :
    (text.foldl (fun acc b => acc + b.setWidth 64) acc).toNat =
      (acc.toNat + (text.map BitVec.toNat).sum) % 2 ^ 64 := by
  induction text generalizing acc with
  | nil => exact (Nat.mod_eq_of_lt acc.isLt).symm
  | cons b bs ih =>
    have hb : (b.setWidth 64).toNat = b.toNat := BitVec.toNat_setWidth_of_le (by decide)
    rw [List.foldl_cons, ih, BitVec.toNat_add, hb, Nat.mod_add_mod, List.map_cons, List.sum_cons, Nat.add_assoc]

theorem byteSumValue_toNat (text : List Byte) :
    (byteSumValue text).toNat = (text.map BitVec.toNat).sum % 2 ^ 64 := by
  have h0 : (0 : Word64).toNat = 0 := rfl
  rw [byteSumValue, foldl_add_byte_toNat, h0, Nat.zero_add]

theorem exec_byteSum_of_admitted {s : State} {ptr len : Word64} (h : ReadAdmitted s ptr.toNat len.toNat) :
    exec (.byteSum ptr len) s = .next (s.respondWord (byteSumValue (textAt s ptr len))) := by
  simp only [exec, execByteSum, textOperand_of_admitted h]

end Sys2Proof.Machine

/-! The obligation of the family 46_bytesum.md. -/

namespace Sys2Proof.Proofs

open Sys2Proof.Machine

/-- Settles O23: the command answers the byte loop's word, which is the sum modulo 2^64. -/
theorem byteSumResult : Obligations.ByteSumResult := by
  intro s ptr len h
  rw [exec_byteSum_of_admitted h, ← byteSumValue_toNat, BitVec.ofNat_toNat]
  rfl

end Sys2Proof.Proofs

/-! SUPPORT. The decoder and the encoder on the five words (30_encoding.md R72 to R75): what a selected row says of the
command word, and the operands the decoder takes. -/

namespace Sys2Proof

theorem decodeWords_eq_ok_iff (d : Descriptor) (i : Instr) :
    decodeWords d = .ok i ↔ ∃ op, (selectRow d.w0).map OpcodeRow.opcode = some op ∧ i = assemble op d := by
  cases hrow : selectRow d.w0 with
  | none => simp [decodeWords, hrow]
  | some row => simp [decodeWords, hrow, eq_comm]

/-- The context fields the command does not use are zero (30_encoding.md R75). -/
def UnusedContextsZero (w : Word64) : Opcode → Prop
  | .aesRound | .byteSum | .hash | .generate => ctxAField w = 0 ∧ ctxBField w = 0
  | .hashStateInit | .hashStateStream | .hashStateFold => ctxBField w = 0
  | .hashStateEqual => True

/-- What the map demands of a command word, field by field (30_encoding.md R74, R75). -/
theorem fields_of_selectRow {w : Word64} {op : Opcode} (h : (selectRow w).map OpcodeRow.opcode = some op) :
    opcodeField w = op.code ∧ reservedField w = 0 ∧ UnusedContextsZero w op := by
  rw [selectRow_eq] at h
  split_ifs at h with h1 h2 h3 h4 h10 h11 h12 h13 <;> cases h
  · subst h1; exact ⟨rfl, rfl, rfl, rfl⟩
  · subst h2; exact ⟨rfl, rfl, rfl, rfl⟩
  · subst h3; exact ⟨rfl, rfl, rfl, rfl⟩
  · subst h4; exact ⟨rfl, rfl, rfl, rfl⟩
  · obtain ⟨hres, hb, hop⟩ := h10; exact ⟨hop, hres, hb⟩
  · obtain ⟨hres, hb, hop⟩ := h11; exact ⟨hop, hres, hb⟩
  · obtain ⟨hres, hb, hop⟩ := h12; exact ⟨hop, hres, hb⟩
  · obtain ⟨hres, hop⟩ := h13; exact ⟨hop, hres, trivial⟩

/-- The command word of a decoded descriptor is the one the encoder writes for the command. -/
theorem w0_eq_of_selectRow {d : Descriptor} {op : Opcode} (h : (selectRow d.w0).map OpcodeRow.opcode = some op) :
    d.w0 = (encodeWords (assemble op d)).w0 := by
  obtain ⟨hop, hres, hctx⟩ := fields_of_selectRow h
  rw [commandWord_ext]
  cases op with
  | aesRound | byteSum | hash | generate =>
    obtain ⟨ha, hb⟩ := hctx
    simp [encodeWords, assemble, hop, hres, ha, hb]
  | hashStateInit | hashStateStream | hashStateFold =>
    have hb : ctxBField d.w0 = 0 := hctx
    simp [encodeWords, assemble, hop, hres, hb]
  | hashStateEqual => simp [encodeWords, assemble, hop, hres]

theorem wellFormed_assemble (op : Opcode) (d : Descriptor) : (assemble op d).wellFormed = true := by
  have hfits : ∀ field : BitVec 8, ctxFits field.toNat = true := fun field => decide_eq_true field.isLt
  cases op <;> simp [assemble, Instr.wellFormed, hfits]

theorem operandsFrom_assemble (op : Opcode) (d : Descriptor) : Safety.OperandsFrom d (assemble op d) := by
  cases op <;> simp [assemble, Safety.OperandsFrom]

/-- A context index that fits its field is read back from it (R72). -/
theorem toNat_ofNat_of_ctxFits {c : Nat} (h : ctxFits c = true) : (BitVec.ofNat 8 c).toNat = c := by
  rw [BitVec.toNat_ofNat]
  exact Nat.mod_eq_of_lt (of_decide_eq_true h)

/-- The operands of a command are what the decoder takes from words that hold them (R73). -/
theorem assemble_of_operandsFrom {d : Descriptor} {i : Instr} (hwf : i.wellFormed = true)
    (hw0 : d.w0 = (encodeWords i).w0) (hops : Safety.OperandsFrom d i) : assemble i.opcode d = i := by
  cases i with
  | aesRound X K => obtain ⟨rfl, rfl⟩ := hops; rfl
  | byteSum ptr len => obtain ⟨rfl, rfl⟩ := hops; rfl
  | hash ptr len seed => obtain ⟨rfl, rfl, rfl⟩ := hops; rfl
  | generate dst len nonce => obtain ⟨rfl, rfl, rfl⟩ := hops; rfl
  | hashStateInit a seed =>
    subst hops
    simp [assemble, Instr.opcode, hw0, encodeWords, toNat_ofNat_of_ctxFits hwf]
  | hashStateStream a ptr len =>
    obtain ⟨rfl, rfl⟩ := hops
    simp [assemble, Instr.opcode, hw0, encodeWords, toNat_ofNat_of_ctxFits hwf]
  | hashStateFold a =>
    simp [assemble, Instr.opcode, hw0, encodeWords, toNat_ofNat_of_ctxFits hwf]
  | hashStateEqual a b =>
    obtain ⟨ha, hb⟩ := Bool.and_eq_true_iff.mp hwf
    simp [assemble, Instr.opcode, hw0, encodeWords, toNat_ofNat_of_ctxFits ha, toNat_ofNat_of_ctxFits hb]

/-- The lemma per constructor, for every command. -/
theorem encodingSelectsRow (i : Instr) : Laws.EncodingSelectsRow.Statement i := by
  cases i with
  | aesRound X K => exact Laws.EncodingSelectsRow.aesRound X K
  | byteSum ptr len => exact Laws.EncodingSelectsRow.byteSum ptr len
  | hash ptr len seed => exact Laws.EncodingSelectsRow.hash ptr len seed
  | generate dst len nonce => exact Laws.EncodingSelectsRow.generate dst len nonce
  | hashStateInit a seed => exact Laws.EncodingSelectsRow.hashStateInit a seed
  | hashStateStream a ptr len => exact Laws.EncodingSelectsRow.hashStateStream a ptr len
  | hashStateFold a => exact Laws.EncodingSelectsRow.hashStateFold a
  | hashStateEqual a b => exact Laws.EncodingSelectsRow.hashStateEqual a b

/-- The encoder writes the operands into the words of the format (R73). -/
theorem operandsFrom_encodeWords (i : Instr) : Safety.OperandsFrom (encodeWords i) i := by
  cases i <;> simp [encodeWords, Safety.OperandsFrom]

/-- The encoding is 40 bytes, from which the decoder reads the five words back (R71). -/
theorem decode_encode (i : Instr) : decode (encode i) = decodeWords (encodeWords i) := by
  rw [decode, encode, if_pos (Laws.descriptor_toBytes_length _), ofBytes_toBytes]

/-- Every row looks at the whole opcode field (R74). -/
theorem opcodeField_of_selectedBy {row : OpcodeRow} (hrow : row ∈ opcodeMap) {w : Word64}
    (h : row.selectedBy w = true) : opcodeField w = opcodeField row.pattern := by
  have hmask : ∀ row ∈ opcodeMap, opcodeField row.mask = 0xFF := by decide
  obtain ⟨hop, -⟩ := (selectedBy_iff row w).mp h
  rwa [hmask row hrow, and_ones8] at hop

theorem row_eq_of_opcodeField_eq :
    ∀ row ∈ opcodeMap, ∀ row' ∈ opcodeMap, opcodeField row.pattern = opcodeField row'.pattern → row = row' := by
  decide

end Sys2Proof

/-! The obligations about the encoding and the opcode map. -/

namespace Sys2Proof.Proofs

open Sys2Proof.Machine

/-- Settles O2: the selected row fixes the command word, and the operand words of the format fix the operands. -/
theorem descriptorCarriesOperands : Obligations.DescriptorCarriesOperands := by
  intro d i
  rw [decodeWords_eq_ok_iff]
  constructor
  · rintro ⟨op, hop, rfl⟩
    exact ⟨wellFormed_assemble op d, w0_eq_of_selectRow hop, operandsFrom_assemble op d⟩
  · rintro ⟨hwf, hw0, hops⟩
    obtain ⟨-, hrow⟩ := encodingSelectsRow i hwf
    exact ⟨i.opcode, by rw [hw0, hrow], (assemble_of_operandsFrom hwf hw0 hops).symm⟩

/-- Settles O1: the words of the encoder meet the right side of O2. -/
theorem decodeOfEncode : Obligations.DecodeOfEncode := by
  intro i hwf
  rw [decode_encode]
  exact (descriptorCarriesOperands (encodeWords i) i).mpr ⟨hwf, rfl, operandsFrom_encodeWords i⟩

/-- Settles O4: two rows a word selects have its opcode, and the rows differ in their opcodes. -/
theorem rowsDoNotOverlap : Obligations.RowsDoNotOverlap := by
  intro w row hrow row' hrow' h h'
  exact row_eq_of_opcodeField_eq row hrow row' hrow'
    ((opcodeField_of_selectedBy hrow h).symm.trans (opcodeField_of_selectedBy hrow' h'))

/-- Settles O10: the field values of the eight words select the eight rows, the other three words none. -/
theorem writtenWordsDecode : Obligations.WrittenWordsDecode := by
  exact ⟨rfl, rfl, rfl, rfl, rfl, rfl, rfl, rfl, rfl, rfl, rfl⟩

/-- Settles O8: a step is dispatch on the decoded request. -/
theorem stepRunsDecodedCommand : Obligations.StepRunsDecodedCommand := by
  intro s req rest i hs hi
  exact step_of_legal hs ((decode_request req).symm.trans hi)

/-- Settles O9: the first case of `step`. -/
theorem idleUnitStaysIdle : Obligations.IdleUnitStaysIdle := by
  intro s hs
  simp only [step, hs]

/-- Settles O7: the range check comes before everything else a command does. -/
theorem badContextAnswered : Obligations.BadContextAnswered := by
  intro i s h
  rw [exec_of_badContext h]
  rfl

end Sys2Proof.Proofs

/-! SUPPORT. What a step keeps: the invariant, the launch parameters and the ports, and every context and byte of memory
the command does not write (10_state.md R33, R34, R37; 20_memory.md R50, R52). -/

namespace Sys2Proof.Machine

open Sys2Proof.Safety

theorem reachedByStreaming_fullInit (seed : Word64) : ReachedByStreaming (fullInit seed) := ⟨seed, [], rfl⟩

theorem reachedByStreaming_streamText {F : FullState} (h : ReachedByStreaming F) (text : List Byte) :
    ReachedByStreaming (streamText F text) := by
  obtain ⟨seed, before, rfl⟩ := h
  exact ⟨seed, before ++ text, (streamText_append _ _ _).symm⟩

/-- The invariant speaks of the address width, the memory and the contexts only. -/
theorem stateInv_of_same {s t : State} (h : StateInv s) (haddr : t.addrW = s.addrW) (hmem : t.mem = s.mem)
    (hctx : t.contexts = s.contexts) : StateInv t where
  memory_wf := hmem ▸ h.memory_wf
  memory_in_space := by rw [hmem, haddr]; exact h.memory_in_space
  contexts_reached c F hF := h.contexts_reached c F (by rw [← hF, State.context, State.context, hctx])

theorem stateInv_hostStores {s : State} (h : StateInv s) (cs : List Host.Cell) :
    StateInv (s.setMem (hostStores s.addrW s.mem cs)) where
  memory_wf := hostStores_wf cs _ h.memory_wf
  memory_in_space := hostStores_in_space cs h.memory_in_space
  contexts_reached := h.contexts_reached

theorem stateInv_accept {s : State} (h : StateInv s) (req : Request) (rest : List Request) :
    StateInv (s.accept req rest) := stateInv_of_same (stateInv_hostStores h req.stores) rfl rfl rfl

theorem stateInv_release {s : State} (h : StateInv s) : StateInv s.release :=
  stateInv_of_same (stateInv_hostStores h (hostWrites s.grant.during)) rfl rfl rfl

theorem stateInv_setContext {s : State} (h : StateInv s) (a : Nat) {F : FullState} (hF : ReachedByStreaming F) :
    StateInv (s.setContext a F) where
  memory_wf := h.memory_wf
  memory_in_space := h.memory_in_space
  contexts_reached c G hG := by
    rw [State.setContext_context] at hG
    split at hG
    · cases hG; exact hF
    · exact h.contexts_reached c G hG

/-- The generator's bytes lie in the destination, which an admitted write keeps in the address space. -/
theorem stateInv_writeBytes {s : State} (h : StateInv s) {a : Nat} {v : List Byte} (hadm : WriteAdmitted s a v.length) :
    StateInv (s.setMem (writeBytes s.mem a v)) where
  memory_wf := writeBytes_wf v a h.memory_wf
  memory_in_space cell hcell := by
    rcases mem_writeBytes v hcell with hold | ⟨hlow, hhigh⟩
    · exact h.memory_in_space cell hold
    · rcases hadm with hzero | ⟨-, hspace, -⟩
      · omega
      · exact Nat.lt_of_lt_of_le hhigh hspace
  contexts_reached := h.contexts_reached

/-! The stream of the generator. -/

/-- Pieces of one width, laid one after the other, are found by division. -/
theorem flatMap_getElem? {f : Nat → List Byte} {w : Nat} (hw : 0 < w) (hf : ∀ i, (f i).length = w) (k j : Nat) :
    ((List.range k).flatMap f)[j]? = if j < w * k then (f (j / w))[j % w]? else none := by
  induction k with
  | zero => simp
  | succ k ih =>
    have hlen : ((List.range k).flatMap f).length = w * k := by simp [List.length_flatMap, hf, Nat.mul_comm]
    rw [List.range_succ, List.flatMap_append, List.flatMap_singleton, Nat.mul_succ]
    by_cases hj : j < w * k
    · rw [List.getElem?_append_left (hlen ▸ hj), ih, if_pos hj, if_pos (by omega)]
    · rw [List.getElem?_append_right (by omega), hlen]
      by_cases hj' : j < w * k + w
      · have hdiv : j / w = k := by rw [Nat.div_eq_iff hw, Nat.mul_comm]; omega
        have hmod : j % w = j - w * k := by have := Nat.div_add_mod j w; rw [hdiv] at this; omega
        rw [if_pos hj', hdiv, hmod]
      · rw [if_neg hj', List.getElem?_eq_none (by rw [hf]; omega)]

/-- Byte `j` of the generator's stream is byte `j mod 16` of `block_(j div 16)` (47_generate.md R196). -/
theorem generatorBytes_getElem? (nonce : Word64) (n j : Nat) :
    (generatorBytes nonce n)[j]? =
      if j < n then some (blockByte (generatorBlock nonce (j / 16)) (j % 16)) else none := by
  rw [generatorBytes, List.getElem?_take]
  by_cases hj : j < n
  · rw [if_pos hj, flatMap_getElem? (by omega) (fun i => bytesOfBlock_length _), if_pos (by omega),
      bytesOfBlock_getElem?, if_pos (Nat.mod_lt _ (by omega)), if_pos hj]
  · rw [if_neg hj, if_neg hj]

@[simp] theorem generatorBytes_length (nonce : Word64) (n : Nat) : (generatorBytes nonce n).length = n := by
  have h16 : ∀ i, (bytesOfBlock (generatorBlock nonce i)).length = 16 := fun i => bytesOfBlock_length _
  rw [generatorBytes, List.length_take, List.length_flatMap]
  simp [h16]
  omega

/-- A shorter stream is the beginning of a longer one (47_generate.md R199). -/
theorem generatorBytes_eq_take (nonce : Word64) {n m : Nat} (h : n ≤ m) :
    generatorBytes nonce n = (generatorBytes nonce m).take n := by
  apply List.ext_getElem?
  intro j
  rw [List.getElem?_take, generatorBytes_getElem?, generatorBytes_getElem?]
  by_cases hj : j < n
  · rw [if_pos hj, if_pos hj, if_pos (by omega)]
  · rw [if_neg hj, if_neg hj]

/-! Commands. -/

theorem stateInv_of_exec {i : Instr} {s t : State} (h : StateInv s) (hexec : exec i s = .next t) : StateInv t := by
  rcases exec_next hexec with ⟨st, v, rfl⟩ | ⟨M, v, rfl⟩ | ⟨W, v, rfl⟩ | ⟨dst, len, nonce, -, hadm, rfl⟩ |
    ⟨a, seed, -, -, rfl⟩ | ⟨a, ptr, len, F, -, hF, -, rfl⟩
  · exact stateInv_of_same h rfl rfl rfl
  · exact stateInv_of_same h rfl rfl rfl
  · exact stateInv_of_same h rfl rfl rfl
  · rw [← generatorBytes_length nonce len.toNat] at hadm
    exact stateInv_of_same (stateInv_writeBytes h hadm) rfl rfl rfl
  · exact stateInv_of_same (stateInv_setContext h a (reachedByStreaming_fullInit seed)) rfl rfl rfl
  · have hreached := reachedByStreaming_streamText (h.contexts_reached a F hF) (textAt s ptr len)
    exact stateInv_of_same (stateInv_setContext h a hreached) rfl rfl rfl

theorem stateInv_of_step {s t : State} (h : StateInv s) (hstep : step s = .next t) : StateInv t := by
  rcases step_eq_next hstep with ⟨-, rfl⟩ | ⟨req, rest, e, -, -, rfl⟩ | ⟨req, rest, i, u, -, -, hu, rfl⟩
  · exact h
  · exact stateInv_release (stateInv_of_same (stateInv_accept h req rest) rfl rfl rfl)
  · exact stateInv_release (stateInv_of_exec (stateInv_accept h req rest) hu)

theorem stateInv_resetOf (c : Config) : StateInv (State.resetOf c) where
  memory_wf := resetOf_mem_wf c
  memory_in_space _ hcell := nomatch hcell
  contexts_reached k F hF := by rw [resetOf_context] at hF; cases hF

/-- The fields of the state no command changes. -/
structure SameParametersAndPorts (s t : State) : Prop where
  addrW : t.addrW = s.addrW
  genDstAlign : t.genDstAlign = s.genDstAlign
  nctx : t.nctx = s.nctx
  grant : t.grant = s.grant
  host : t.host = s.host
  response : ∃ r, t.responses = s.responses ++ [r]

theorem sameParametersAndPorts_of_exec {i : Instr} {s t : State} (h : exec i s = .next t) :
    SameParametersAndPorts s t := by
  rcases exec_next h with ⟨st, v, rfl⟩ | ⟨M, v, rfl⟩ | ⟨W, v, rfl⟩ | ⟨dst, len, nonce, -, -, rfl⟩ |
    ⟨a, seed, -, -, rfl⟩ | ⟨a, ptr, len, F, -, -, -, rfl⟩
  · exact ⟨rfl, rfl, rfl, rfl, rfl, _, rfl⟩
  · exact ⟨rfl, rfl, rfl, rfl, rfl, _, rfl⟩
  · exact ⟨rfl, rfl, rfl, rfl, rfl, _, rfl⟩
  · exact ⟨rfl, rfl, rfl, rfl, rfl, _, rfl⟩
  · exact ⟨rfl, rfl, State.setContext_nctx _ _ _, rfl, rfl, _, rfl⟩
  · exact ⟨rfl, rfl, State.setContext_nctx _ _ _, rfl, rfl, _, rfl⟩

/-- What a command leaves of one context: the context as it was, or a write by init or stream (10_state.md R37). -/
theorem context_of_exec {i : Instr} {s t : State} (h : exec i s = .next t) (c : Nat) :
    t.context c = s.context c ∨
    (∃ seed, i = .hashStateInit c seed ∧ t.context c = some (fullInit seed)) ∨
    (∃ ptr len F, i = .hashStateStream c ptr len ∧ s.context c = some F ∧
      t.context c = some (streamText F (textAt s ptr len))) := by
  rcases exec_next h with ⟨st, v, rfl⟩ | ⟨M, v, rfl⟩ | ⟨W, v, rfl⟩ | ⟨dst, len, nonce, -, -, rfl⟩ |
    ⟨a, seed, rfl, ha, rfl⟩ | ⟨a, ptr, len, F, rfl, hF, -, rfl⟩
  · exact .inl rfl
  · exact .inl rfl
  · exact .inl rfl
  · exact .inl rfl
  · by_cases hc : c = a
    · subst hc
      exact .inr (.inl ⟨seed, rfl, State.setContext_context_self s _ ha⟩)
    · exact .inl (State.setContext_context_other s _ hc)
  · by_cases hc : c = a
    · subst hc
      exact .inr (.inr ⟨ptr, len, F, rfl, hF, State.setContext_context_self s _ (lt_nctx_of_context hF)⟩)
    · exact .inl (State.setContext_context_other s _ hc)

/-- A store leaves every other byte as it was, in any memory. -/
theorem readByte_writeByte_of_ne (m : Memory) {a x : Nat} (h : x ≠ a) (b : Byte) :
    readByte (writeByte m a b) x = readByte m x := by
  have hcons : ∀ m : Memory, readByte (consCell a b m) x = readByte m x := by
    intro m
    unfold consCell
    split
    · rfl
    · rw [readByte, if_neg h]
  induction m with
  | nil => exact hcons []
  | cons cell rest ih =>
    obtain ⟨y, c⟩ := cell
    unfold writeByte
    split_ifs with hlt heq
    · exact hcons _
    · rw [hcons, readByte, if_neg (heq ▸ h)]
    · rw [readByte, readByte, ih]

/-- Storing a byte string leaves every byte outside it as it was, in any memory (20_memory.md R52). -/
theorem readByte_writeBytes_of_not_mem (v : List Byte) (m : Memory) (a : Nat) {x : Nat}
    (h : ¬ (a ≤ x ∧ x < a + v.length)) : readByte (writeBytes m a v) x = readByte m x := by
  induction v generalizing m a with
  | nil => rfl
  | cons b bs ih =>
    rw [List.length_cons] at h
    rw [writeBytes, ih _ _ (by omega), readByte_writeByte_of_ne _ (by omega)]

/-- What a command leaves of the memory: the memory as it was, or the stores of `GENERATE` (10_state.md R37). -/
theorem mem_of_exec {i : Instr} {s t : State} (h : exec i s = .next t) :
    t.mem = s.mem ∨ ∃ dst len nonce, i = .generate dst len nonce ∧
      t.mem = writeBytes s.mem dst.toNat (generatorBytes nonce len.toNat) := by
  rcases exec_next h with ⟨st, v, rfl⟩ | ⟨M, v, rfl⟩ | ⟨W, v, rfl⟩ | ⟨dst, len, nonce, hi, -, rfl⟩ |
    ⟨a, seed, -, -, rfl⟩ | ⟨a, ptr, len, F, -, -, -, rfl⟩
  · exact .inl rfl
  · exact .inl rfl
  · exact .inl rfl
  · exact .inr ⟨dst, len, nonce, hi, rfl⟩
  · exact .inl rfl
  · exact .inl rfl

/-- A byte that is not in the destination of the command reads as before (20_memory.md R52). -/
theorem readByte_of_exec {i : Instr} {s t : State} (h : exec i s = .next t) {x : Nat}
    (hx : inDestination i x = false) : readByte t.mem x = readByte s.mem x := by
  rcases mem_of_exec h with hmem | ⟨dst, len, nonce, rfl, hmem⟩
  · rw [hmem]
  · rw [hmem]
    apply readByte_writeBytes_of_not_mem
    rw [generatorBytes_length]
    simpa [inDestination, inRange] using hx

/-- A step takes one command off the port and adds one response, unless the unit is idle (30_encoding.md R70). -/
theorem ports_of_step {s t : State} (h : step s = .next t) :
    t.host = s.host.drop 1 ∧ ∃ rs, t.responses = s.responses ++ rs ∧ rs.length = min 1 s.host.length := by
  rcases step_eq_next h with ⟨hs, rfl⟩ | ⟨req, rest, e, hs, -, rfl⟩ | ⟨req, rest, i, u, hs, -, hu, rfl⟩
  · exact ⟨by simp [hs], [], by simp, by simp [hs]⟩
  · exact ⟨by simp [hs], _, rfl, by simp [hs]⟩
  · have hsame := sameParametersAndPorts_of_exec hu
    obtain ⟨r, hr⟩ := hsame.response
    exact ⟨by simp [hsame.host, hs], [r], hr, by simp [hs]⟩

/-- A run of `k + 1` steps that answers is a step and a run of `k`. -/
theorem run_succ_eq_next {M : Host.Core} {k : Nat} {s t : M.State} (h : M.run (k + 1) s = .next t) :
    ∃ u, M.step s = .next u ∧ M.run k u = .next t := by
  rw [Host.Core.run] at h
  split at h
  · next u hu => exact ⟨u, hu, h⟩
  · cases h
  · cases h

end Sys2Proof.Machine

/-! The obligations about what a step keeps. -/

namespace Sys2Proof.Proofs

open Sys2Proof.Machine Sys2Proof.Safety

/-- Settles O43: accepting, each command and the release keep the invariant. -/
theorem stepKeepsInvariant : Obligations.StepKeepsInvariant := fun _ _ => stateInv_of_step

/-- Settles O44: nothing is listed and no context holds a value. -/
theorem resetSatisfiesInvariant : Obligations.ResetSatisfiesInvariant := stateInv_resetOf

/-- Settles O45: the fields of the state after reset. -/
theorem resetHoldsNoContext : Obligations.ResetHoldsNoContext := by
  refine ⟨fun c => ⟨List.length_replicate, resetOf_context c, rfl, rfl, rfl, rfl⟩, rfl, rfl, rfl⟩

/-- Settles O46: of the three things a command can leave of a context, two are writes and none loses a value. -/
theorem onlyInitAndStreamWriteContexts : Obligations.OnlyInitAndStreamWriteContexts := by
  intro i s t h c
  rcases context_of_exec h c with hsame | ⟨seed, hi, ht⟩ | ⟨ptr, len, F, hi, hF, ht⟩
  · exact ⟨fun hne => absurd hsame hne, fun hv => by rwa [HoldsValue, hsame]⟩
  · exact ⟨fun _ => .inl ⟨seed, hi⟩, fun _ => by simp [HoldsValue, ht]⟩
  · exact ⟨fun _ => .inr ⟨by simp [HoldsValue, hF], ptr, len, hi⟩, fun _ => by simp [HoldsValue, ht]⟩

/-- Settles O47: only `GENERATE` has a destination. -/
theorem onlyGenerateWritesMemory : Obligations.OnlyGenerateWritesMemory := by
  intro i s t h x hx
  have hdst : inDestination i x = true := Bool.of_not_eq_false fun hnot => hx (readByte_of_exec h hnot)
  cases i with
  | generate dst len nonce =>
    obtain ⟨hlow, hhigh⟩ : dst.toNat ≤ x ∧ x < dst.toNat + len.toNat := by simpa [inDestination, inRange] using hdst
    exact ⟨dst, len, nonce, rfl, hlow, hhigh⟩
  | _ => cases hdst

/-- Settles O49: field by field over the six next states of a command. -/
theorem commandsKeepParametersAndPorts : Obligations.CommandsKeepParametersAndPorts := by
  intro i s t h
  obtain ⟨haddr, halign, hnctx, hgrant, hhost, hresp⟩ := sameParametersAndPorts_of_exec h
  exact ⟨haddr, halign, hnctx, hgrant, hhost, hresp⟩

/-- Settles O52, by induction on the number of steps: each takes one command and adds one response, or is idle. -/
theorem runAnswersInOrder : Obligations.RunAnswersInOrder := by
  intro k
  induction k with
  | zero =>
    intro s t h
    cases h
    exact ⟨rfl, [], by simp, by simp⟩
  | succ k ih =>
    intro s t h
    obtain ⟨u, hu, hrun⟩ := run_succ_eq_next h
    obtain ⟨hhost, rs, hresp, hlen⟩ := ports_of_step hu
    obtain ⟨hhost', rs', hresp', hlen'⟩ := ih u t hrun
    refine ⟨by rw [hhost', hhost, List.drop_drop, Nat.add_comm], rs ++ rs', ?_, ?_⟩
    · rw [hresp', hresp, List.append_assoc]
    · rw [List.length_append, hlen, hlen', hhost, List.length_drop]
      omega

end Sys2Proof.Proofs

/-! SUPPORT. Refusals: when the text or the destination of a command is not admitted, and when a context holds no value
(60_exceptions.md R209). -/

namespace Sys2Proof.Machine

open Sys2Proof.Safety

theorem exists_readViolation {s : State} {a n : Nat} (h : ¬ ReadAdmitted s a n) : ∃ r, readViolation s a n = some r :=
  Option.ne_none_iff_exists'.mp (mt (readViolation_eq_none_iff s a n).mp h)

theorem exists_writeViolation {s : State} {a n : Nat} (h : ¬ WriteAdmitted s a n) :
    ∃ r, writeViolation s a n = some r :=
  Option.ne_none_iff_exists'.mp (mt (writeViolation_eq_none_iff s a n).mp h)

theorem exec_generate_of_writeViolation {s : State} {dst len : Word64} {r : Refusal}
    (h : writeViolation s dst.toNat len.toNat = some r) (nonce : Word64) :
    exec (.generate dst len nonce) s = .refused r := by
  simp only [exec, execGenerate, memWrite, h]

theorem exec_generate_of_admitted {s : State} {dst len : Word64} (h : WriteAdmitted s dst.toNat len.toNat)
    (nonce : Word64) :
    exec (.generate dst len nonce) s =
      .next (s.setMem (writeBytes s.mem dst.toNat (generatorBytes nonce len.toNat))).respondDone := by
  simp only [exec, execGenerate, (memWrite_eq_ok_iff _ _ _ _ _).mpr ⟨h, rfl⟩]

theorem exec_hashStateStream_of_absent {s : State} {a : Nat} (ha : a < s.nctx) (h : s.context a = none)
    (ptr len : Word64) : exec (.hashStateStream a ptr len) s = .refused .contextHoldsNoValue := by
  simp only [exec, execHashStateStream, if_neg (Nat.not_le.mpr ha), contextOperand, h]

theorem exec_hashStateFold_of_absent {s : State} {a : Nat} (ha : a < s.nctx) (h : s.context a = none) :
    exec (.hashStateFold a) s = .refused .contextHoldsNoValue := by
  simp only [exec, execHashStateFold, if_neg (Nat.not_le.mpr ha), contextOperand, h]

/-- The comparison wants both contexts, so it is refused whichever of them is absent. -/
theorem exec_hashStateEqual_of_absent {s : State} {a b : Nat} (ha : a < s.nctx) (hb : b < s.nctx)
    (h : s.context a = none ∨ s.context b = none) : exec (.hashStateEqual a b) s = .refused .contextHoldsNoValue := by
  have hin : ¬ (s.nctx ≤ a ∨ s.nctx ≤ b) := by omega
  simp only [exec, execHashStateEqual, if_neg hin, contextOperand]
  cases hF : s.context a with
  | none => rfl
  | some F =>
    have hG : s.context b = none := h.resolve_left (by simp [hF])
    simp only [hG]

theorem exec_hashStateEqual_of_contexts {s : State} {a b : Nat} {F G : FullState} (hF : s.context a = some F)
    (hG : s.context b = some G) :
    exec (.hashStateEqual a b) s = .next (s.respond .ok (if contextsMatch F G then 1 else 0)) := by
  have ha := lt_nctx_of_context hF
  have hb := lt_nctx_of_context hG
  have hin : ¬ (s.nctx ≤ a ∨ s.nctx ≤ b) := by omega
  simp only [exec, execHashStateEqual, if_neg hin, contextOperand, hF, hG]

/-- A command that answers was admitted to its text. -/
theorem readAdmitted_of_exec {i : Instr} {s t : State} {ptr len : Word64} (hreads : ReadsText s ptr len i)
    (h : exec i s = .next t) : ReadAdmitted s ptr.toNat len.toNat := by
  by_contra hnot
  obtain ⟨r, hr⟩ := exists_readViolation hnot
  cases (exec_of_readViolation hreads hr).symm.trans h

/-- The violations of R209, in the order of the statement that lists them. -/
def contractViolations : List Refusal :=
  [.outOfBoundsPointer, .nullPointer, .unalignedDestination, .contextHoldsNoValue, .bufferTouched]

theorem readViolation_mem_contractViolations {s : State} {a n : Nat} {r : Refusal}
    (h : readViolation s a n = some r) : r ∈ contractViolations := by
  have hsub : [Refusal.outOfBoundsPointer, .nullPointer, .bufferTouched] ⊆ contractViolations := by decide
  exact hsub (readViolation_mem h)

theorem writeViolation_mem_contractViolations {s : State} {a n : Nat} {r : Refusal}
    (h : writeViolation s a n = some r) : r ∈ contractViolations := by
  have hsub : [Refusal.outOfBoundsPointer, .nullPointer, .bufferTouched, .unalignedDestination] ⊆
      contractViolations := by decide
  exact hsub (writeViolation_mem h)

/-- The context indices of a command that are not out of range are below `NCTX`. -/
theorem lt_nctx_of_not_badContext {i : Instr} {s : State} (h : ¬ BadContext i s) {c : Nat} (hc : c ∈ namedContexts i) :
    c < s.nctx := Nat.lt_of_not_le fun hn => h ⟨c, hc, hn⟩

theorem answers_of_badContext {i : Instr} {s : State} (h : BadContext i s) : Answers (exec i s) :=
  ⟨_, exec_of_badContext h⟩

/-- A command whose caller keeps the contract answers. -/
theorem answers_of_contractKept {i : Instr} {s : State} (hin : ¬ BadContext i s) (h : ContractKept i s) :
    Answers (exec i s) := by
  cases i with
  | aesRound X K => exact ⟨_, exec_aesRound X K s⟩
  | byteSum ptr len => exact ⟨_, exec_byteSum_of_admitted h⟩
  | hash ptr len seed => exact ⟨_, exec_hash_of_admitted h seed⟩
  | generate dst len nonce => exact ⟨_, exec_generate_of_admitted h nonce⟩
  | hashStateInit a seed =>
    exact ⟨_, exec_hashStateInit_of_lt (lt_nctx_of_not_badContext hin List.mem_cons_self) seed⟩
  | hashStateStream a ptr len =>
    obtain ⟨hv, hadm⟩ := h
    obtain ⟨F, hF⟩ := Option.ne_none_iff_exists'.mp hv
    exact ⟨_, exec_hashStateStream_of_admitted hF hadm⟩
  | hashStateFold a =>
    obtain ⟨F, hF⟩ := Option.ne_none_iff_exists'.mp h
    exact ⟨_, exec_hashStateFold_of_context hF⟩
  | hashStateEqual a b =>
    obtain ⟨hva, hvb⟩ := h
    obtain ⟨F, hF⟩ := Option.ne_none_iff_exists'.mp hva
    obtain ⟨G, hG⟩ := Option.ne_none_iff_exists'.mp hvb
    exact ⟨_, exec_hashStateEqual_of_contexts hF hG⟩

/-- A command whose caller breaks the contract is refused under the name of a violation. -/
theorem refused_of_not_contractKept {i : Instr} {s : State} (hin : ¬ BadContext i s) (h : ¬ ContractKept i s) :
    ∃ r ∈ contractViolations, exec i s = .refused r := by
  have habsent : Refusal.contextHoldsNoValue ∈ contractViolations := by decide
  cases i with
  | aesRound X K => exact absurd trivial h
  | byteSum ptr len =>
    obtain ⟨r, hr⟩ := exists_readViolation h
    exact ⟨r, readViolation_mem_contractViolations hr, exec_of_readViolation ⟨rfl, rfl⟩ hr⟩
  | hash ptr len seed =>
    obtain ⟨r, hr⟩ := exists_readViolation h
    exact ⟨r, readViolation_mem_contractViolations hr, exec_of_readViolation ⟨rfl, rfl⟩ hr⟩
  | generate dst len nonce =>
    obtain ⟨r, hr⟩ := exists_writeViolation h
    exact ⟨r, writeViolation_mem_contractViolations hr, exec_generate_of_writeViolation hr nonce⟩
  | hashStateInit a seed => exact absurd trivial h
  | hashStateStream a ptr len =>
    by_cases hv : HoldsValue s a
    · obtain ⟨r, hr⟩ := exists_readViolation fun hadm => h ⟨hv, hadm⟩
      exact ⟨r, readViolation_mem_contractViolations hr, exec_of_readViolation ⟨hv, rfl, rfl⟩ hr⟩
    · have ha := lt_nctx_of_not_badContext hin (c := a) List.mem_cons_self
      exact ⟨_, habsent, exec_hashStateStream_of_absent ha (not_not.mp hv) ptr len⟩
  | hashStateFold a =>
    have ha := lt_nctx_of_not_badContext hin (c := a) List.mem_cons_self
    exact ⟨_, habsent, exec_hashStateFold_of_absent ha (not_not.mp h)⟩
  | hashStateEqual a b =>
    have ha := lt_nctx_of_not_badContext hin (c := a) List.mem_cons_self
    have hb := lt_nctx_of_not_badContext hin (c := b) (List.mem_cons_of_mem a List.mem_cons_self)
    have hnone : s.context a = none ∨ s.context b = none := (not_and_or.mp h).imp not_not.mp not_not.mp
    exact ⟨_, habsent, exec_hashStateEqual_of_absent ha hb hnone⟩

/-! The admission tests, violation by violation, in the order the model makes them (log 7). -/

theorem pointerViolation_null (s : State) (n : Nat) : pointerViolation s 0 n = some .nullPointer := rfl

theorem pointerViolation_past_end {s : State} {a n : Nat} (ha : a ≠ 0) (h : 2 ^ s.addrW < a + n) :
    pointerViolation s a n = some .outOfBoundsPointer := by
  rw [pointerViolation, if_neg ha, if_pos h]

theorem pointerViolation_none {s : State} {a n : Nat} (ha : a ≠ 0) (h : a + n ≤ 2 ^ s.addrW) :
    pointerViolation s a n = none := by
  rw [pointerViolation, if_neg ha, if_neg (Nat.not_lt.mpr h)]

theorem readViolation_of_pointer {s : State} {a n : Nat} {r : Refusal} (hn : n ≠ 0)
    (h : pointerViolation s a n = some r) : readViolation s a n = some r := by
  simp only [readViolation, if_neg hn, h]

theorem writeViolation_of_pointer {s : State} {a n : Nat} {r : Refusal} (hn : n ≠ 0)
    (h : pointerViolation s a n = some r) : writeViolation s a n = some r := by
  simp only [writeViolation, if_neg hn, h]

theorem regionsCoverAll_eq_false {rs : List Region} {a n : Nat} (h : ∃ k < n, regionsCover rs (a + k) = false) :
    regionsCoverAll rs a n = false := by
  obtain ⟨k, hk, hnot⟩ := h
  refine Bool.eq_false_of_not_eq_true fun hall => ?_
  rw [(regionsCoverAll_iff rs n a).mp hall k hk] at hnot
  cases hnot

theorem readViolation_uncovered {s : State} {a n : Nat} (hn : n ≠ 0) (hp : pointerViolation s a n = none)
    (h : ∃ k < n, regionsCover s.grant.readable (a + k) = false) :
    readViolation s a n = some .outOfBoundsPointer := by
  simp [readViolation, hn, hp, regionsCoverAll_eq_false h]

theorem readViolation_touched {s : State} {a n : Nat} (hn : n ≠ 0) (hp : pointerViolation s a n = none)
    (hc : ∀ k < n, regionsCover s.grant.readable (a + k) = true) (h : ¬ NotWrittenByHost s a n) :
    readViolation s a n = some .bufferTouched := by
  have hwrote := Bool.eq_true_of_not_eq_false (mt (hostWrote_eq_false_iff s a n).mp h)
  simp [readViolation, hn, hp, (regionsCoverAll_iff _ _ _).mpr hc, hwrote]

theorem writeViolation_unaligned {s : State} {a n : Nat} (hn : n ≠ 0) (hp : pointerViolation s a n = none)
    (h : a % s.genDstAlign ≠ 0) : writeViolation s a n = some .unalignedDestination := by
  simp [writeViolation, hn, hp, h]

theorem writeViolation_uncovered {s : State} {a n : Nat} (hn : n ≠ 0) (hp : pointerViolation s a n = none)
    (ha : a % s.genDstAlign = 0) (h : ∃ k < n, regionsCover s.grant.writable (a + k) = false) :
    writeViolation s a n = some .outOfBoundsPointer := by
  simp [writeViolation, hn, hp, ha, regionsCoverAll_eq_false h]

theorem writeViolation_touched {s : State} {a n : Nat} (hn : n ≠ 0) (hp : pointerViolation s a n = none)
    (ha : a % s.genDstAlign = 0) (hc : ∀ k < n, regionsCover s.grant.writable (a + k) = true)
    (h : ¬ NotTouchedByHost s a n) : writeViolation s a n = some .bufferTouched := by
  have htouched := Bool.eq_true_of_not_eq_false (mt (hostTouched_eq_false_iff s a n).mp h)
  simp [writeViolation, hn, hp, ha, (regionsCoverAll_iff _ _ _).mpr hc, htouched]

theorem toNat_ne_zero {w : Word64} (h : w ≠ 0) : w.toNat ≠ 0 := fun h0 => h (BitVec.eq_of_toNat_eq h0)

end Sys2Proof.Machine

/-! The obligations about the contract. -/

namespace Sys2Proof.Proofs

open Sys2Proof.Machine Sys2Proof.Safety

/-- Settles O40: a command in range either keeps the contract and answers, or breaks it and is refused. -/
theorem answersExactlyWhenContractKept : Obligations.AnswersExactlyWhenContractKept := by
  intro i s
  have hrefused : ¬ (BadContext i s ∨ ContractKept i s) → ∃ r ∈ contractViolations, exec i s = .refused r := by
    intro h
    obtain ⟨hin, hbroken⟩ := not_or.mp h
    exact refused_of_not_contractKept hin hbroken
  refine ⟨⟨fun ⟨t, ht⟩ => ?_, ?_⟩, fun h => ?_⟩
  · by_contra h
    obtain ⟨r, -, hr⟩ := hrefused h
    cases hr.symm.trans ht
  · intro h
    by_cases hbad : BadContext i s
    · exact answers_of_badContext hbad
    · exact answers_of_contractKept hbad (h.resolve_left hbad)
  · obtain ⟨r, hmem, hr⟩ := hrefused h
    rw [hr]
    exact List.mem_map_of_mem (f := Host.Outcome.refused) hmem

/-- Settles O41: each clause is one lemma about the admission test, carried to the command. -/
theorem violationsAreNamed : Obligations.ViolationsAreNamed := by
  intro s ptr len hlen
  have hn := toNat_ne_zero hlen
  have hnull : ptr = 0 → pointerViolation s ptr.toNat len.toNat = some .nullPointer := by
    rintro rfl
    exact pointerViolation_null s _
  refine ⟨fun i hi => ⟨fun h => ?_, fun h hend => ?_, fun h hend => ⟨fun hc => ?_, fun hc hw => ?_⟩⟩,
    fun nonce => ⟨fun h => ?_, fun h hend => ?_,
      fun h hend => ⟨fun hu => ?_, fun ha => ⟨fun hc => ?_, fun hc hw => ?_⟩⟩⟩⟩
  · exact exec_of_readViolation hi (readViolation_of_pointer hn (hnull h))
  · exact exec_of_readViolation hi (readViolation_of_pointer hn (pointerViolation_past_end (toNat_ne_zero h) hend))
  · exact exec_of_readViolation hi (readViolation_uncovered hn (pointerViolation_none (toNat_ne_zero h) hend) hc)
  · exact exec_of_readViolation hi (readViolation_touched hn (pointerViolation_none (toNat_ne_zero h) hend) hc hw)
  · exact exec_generate_of_writeViolation (writeViolation_of_pointer hn (hnull h)) nonce
  · exact exec_generate_of_writeViolation
      (writeViolation_of_pointer hn (pointerViolation_past_end (toNat_ne_zero h) hend)) nonce
  · exact exec_generate_of_writeViolation
      (writeViolation_unaligned hn (pointerViolation_none (toNat_ne_zero h) hend) hu) nonce
  · exact exec_generate_of_writeViolation
      (writeViolation_uncovered hn (pointerViolation_none (toNat_ne_zero h) hend) ha hc) nonce
  · exact exec_generate_of_writeViolation
      (writeViolation_touched hn (pointerViolation_none (toNat_ne_zero h) hend) ha hc hw) nonce

/-- Settles O42: the context is asked for before the text, and each of the two contexts of a comparison is. -/
theorem absentContextRefused : Obligations.AbsentContextRefused := by
  intro s a ha h
  refine ⟨exec_hashStateFold_of_absent ha h, exec_hashStateStream_of_absent ha h, fun b hb => ⟨?_, ?_⟩⟩
  · exact exec_hashStateEqual_of_absent ha hb (.inl h)
  · exact exec_hashStateEqual_of_absent hb ha (.inr h)

end Sys2Proof.Proofs

/-! SUPPORT. What a command reads and what it then does to the state: two states that agree in what it reads are
refused alike or updated by one function (20_memory.md R58; 10_state.md R21, R26, R37). -/

namespace Sys2Proof.Machine

open Sys2Proof.Safety

/-- The second state agrees with the first in everything the command reads: the contexts it names, the bytes of its
text, and what the admission tests ask for. -/
structure ReadsAlike (i : Instr) (s s' : State) : Prop where
  addrW : s'.addrW = s.addrW
  genDstAlign : s'.genDstAlign = s.genDstAlign
  grant : s'.grant = s.grant
  nctx : s'.nctx = s.nctx
  context : ∀ c ∈ namedContexts i, s'.context c = s.context c
  byte : ∀ x, inText i x = true → readByte s'.mem x = readByte s.mem x

/-- The updates a command can make when it answers, as functions of the whole state (`exec_next` gives their values). -/
inductive Update : Instr → (State → State) → Prop where
  | respond (i : Instr) (st : Status) (v : BitVec 128) : Update i fun s => s.respond st v
  | minimal (i : Instr) (M : MinimalState) (v : Word64) : Update i fun s => (s.setMin M).respondWord v
  | working (i : Instr) (W : FullState) (v : Word64) : Update i fun s => (s.setWork W).respondWord v
  | generate (dst len nonce : Word64) : Update (.generate dst len nonce) fun s =>
      (s.setMem (writeBytes s.mem dst.toNat (generatorBytes nonce len.toNat))).respondDone
  | init (a : Nat) (seed : Word64) : Update (.hashStateInit a seed) fun s =>
      (s.setContext a (fullInit seed)).respondDone
  | stream (a : Nat) (ptr len : Word64) (G : FullState) : Update (.hashStateStream a ptr len) fun s =>
      (s.setContext a G).respondDone

/-- The command is refused alike in both states, or makes one update in both. -/
def ActsAlike (i : Instr) (s s' : State) : Prop :=
  (∃ r, exec i s = .refused r ∧ exec i s' = .refused r) ∨
    ∃ f, Update i f ∧ exec i s = .next (f s) ∧ exec i s' = .next (f s')

theorem actsAlike_of_update {i : Instr} {f : State → State} {s s' : State} (hf : Update i f)
    (h : exec i s = .next (f s)) (h' : exec i s' = .next (f s')) : ActsAlike i s s' := .inr ⟨f, hf, h, h'⟩

theorem hashText_update (i : Instr) (text : List Byte) (seed : Word64) : Update i (hashText text seed) := by
  unfold hashText
  by_cases h : text.length ≤ 64
  · simp only [if_pos h]
    exact .minimal i _ _
  · simp only [if_neg h]
    exact .working i _ _

theorem foldContext_update (i : Instr) (F : FullState) : Update i (foldContext F) := by
  unfold foldContext
  by_cases hlong : 64 ≤ F.insLength.toNat
  · by_cases htail : 0 < fillLevel F
    · simp only [if_pos hlong, if_pos htail]
      exact .working i _ _
    · simp only [if_pos hlong, if_neg htail]
      exact .respond i _ _
  · simp only [if_neg hlong]
    exact .minimal i _ _

theorem readBytes_congr {m m' : Memory} {a n : Nat} (h : ∀ x, inRange a n x = true → readByte m' x = readByte m x) :
    readBytes m' a n = readBytes m a n := by
  apply List.ext_getElem?
  intro j
  rw [readBytes_getElem?, readBytes_getElem?]
  by_cases hj : j < n
  · rw [h (a + j) (by simp [inRange, hj])]
  · rw [if_neg hj, if_neg hj]

theorem pointerViolation_congr {s s' : State} (h : s'.addrW = s.addrW) (a n : Nat) :
    pointerViolation s' a n = pointerViolation s a n := by
  rw [pointerViolation, pointerViolation, h]

theorem readViolation_congr {i : Instr} {s s' : State} (h : ReadsAlike i s s') (a n : Nat) :
    readViolation s' a n = readViolation s a n := by
  rw [readViolation, readViolation, pointerViolation_congr h.addrW, h.grant]

theorem writeViolation_congr {i : Instr} {s s' : State} (h : ReadsAlike i s s') (a n : Nat) :
    writeViolation s' a n = writeViolation s a n := by
  rw [writeViolation, writeViolation, pointerViolation_congr h.addrW, h.genDstAlign, h.grant]

/-- The text a command reads is the same in the two states. -/
theorem textAt_congr {i : Instr} {s s' : State} (h : ReadsAlike i s s') {ptr len : Word64}
    (hreads : ReadsText s ptr len i) : textAt s' ptr len = textAt s ptr len := by
  apply readBytes_congr
  intro x hx
  apply h.byte
  cases i with
  | byteSum p n => obtain ⟨rfl, rfl⟩ := hreads; exact hx
  | hash p n seed => obtain ⟨rfl, rfl⟩ := hreads; exact hx
  | hashStateStream a p n => obtain ⟨-, rfl, rfl⟩ := hreads; exact hx
  | _ => exact hreads.elim

theorem readsText_congr {i : Instr} {s s' : State} (h : ReadsAlike i s s') {ptr len : Word64}
    (hreads : ReadsText s ptr len i) : ReadsText s' ptr len i := by
  cases i with
  | hashStateStream a p n =>
    obtain ⟨hv, hp, hn⟩ := hreads
    exact ⟨by rwa [HoldsValue, h.context a List.mem_cons_self], hp, hn⟩
  | _ => exact hreads

/-- A command with a text acts alike, if it does so wherever its text is admitted. -/
theorem actsAlike_of_text {i : Instr} {s s' : State} (h : ReadsAlike i s s') {ptr len : Word64}
    (hreads : ReadsText s ptr len i) {f : List Byte → State → State} (hf : ∀ text, Update i (f text))
    (hexec : ReadAdmitted s ptr.toNat len.toNat → exec i s = .next (f (textAt s ptr len) s))
    (hexec' : ReadAdmitted s' ptr.toNat len.toNat → exec i s' = .next (f (textAt s' ptr len) s')) :
    ActsAlike i s s' := by
  cases hviol : readViolation s ptr.toNat len.toNat with
  | some r =>
    have hviol' := (readViolation_congr h ptr.toNat len.toNat).trans hviol
    exact .inl ⟨r, exec_of_readViolation hreads hviol, exec_of_readViolation (readsText_congr h hreads) hviol'⟩
  | none =>
    have hviol' := (readViolation_congr h ptr.toNat len.toNat).trans hviol
    have hs' := hexec' ((readViolation_eq_none_iff s' _ _).mp hviol')
    rw [textAt_congr h hreads] at hs'
    exact actsAlike_of_update (hf _) (hexec ((readViolation_eq_none_iff s _ _).mp hviol)) hs'

/-- A command that reads the same in two states acts alike in them. -/
theorem actsAlike_of_readsAlike {i : Instr} {s s' : State} (h : ReadsAlike i s s') : ActsAlike i s s' := by
  by_cases hbad : BadContext i s
  · have hbad' : BadContext i s' := by
      obtain ⟨c, hc, hn⟩ := hbad
      exact ⟨c, hc, h.nctx ▸ hn⟩
    exact actsAlike_of_update (.respond i _ _) (exec_of_badContext hbad) (exec_of_badContext hbad')
  cases i with
  | aesRound X K => exact actsAlike_of_update (.respond _ _ _) (exec_aesRound X K s) (exec_aesRound X K s')
  | byteSum ptr len =>
    exact actsAlike_of_text h ⟨rfl, rfl⟩ (fun text => .respond _ .ok ((byteSumValue text).setWidth 128))
      exec_byteSum_of_admitted exec_byteSum_of_admitted
  | hash ptr len seed =>
    exact actsAlike_of_text h ⟨rfl, rfl⟩ (fun text => hashText_update _ text seed)
      (exec_hash_of_admitted · seed) (exec_hash_of_admitted · seed)
  | generate dst len nonce =>
    cases hviol : writeViolation s dst.toNat len.toNat with
    | some r =>
      have hviol' := (writeViolation_congr h dst.toNat len.toNat).trans hviol
      exact .inl ⟨r, exec_generate_of_writeViolation hviol nonce, exec_generate_of_writeViolation hviol' nonce⟩
    | none =>
      have hviol' := (writeViolation_congr h dst.toNat len.toNat).trans hviol
      exact actsAlike_of_update (.generate dst len nonce)
        (exec_generate_of_admitted ((writeViolation_eq_none_iff s _ _).mp hviol) nonce)
        (exec_generate_of_admitted ((writeViolation_eq_none_iff s' _ _).mp hviol') nonce)
  | hashStateInit a seed =>
    have ha : a < s.nctx := lt_nctx_of_not_badContext hbad List.mem_cons_self
    exact actsAlike_of_update (.init a seed) (exec_hashStateInit_of_lt ha seed)
      (exec_hashStateInit_of_lt (h.nctx ▸ ha) seed)
  | hashStateStream a ptr len =>
    have ha : a < s.nctx := lt_nctx_of_not_badContext hbad List.mem_cons_self
    have hctx := h.context a List.mem_cons_self
    cases hF : s.context a with
    | none =>
      exact .inl ⟨_, exec_hashStateStream_of_absent ha hF ptr len,
        exec_hashStateStream_of_absent (h.nctx ▸ ha) (hctx.trans hF) ptr len⟩
    | some F =>
      exact actsAlike_of_text h ⟨by simp [HoldsValue, hF], rfl, rfl⟩
        (fun text => .stream a ptr len (streamText F text))
        (exec_hashStateStream_of_admitted hF) (exec_hashStateStream_of_admitted (hctx.trans hF))
  | hashStateFold a =>
    have ha : a < s.nctx := lt_nctx_of_not_badContext hbad List.mem_cons_self
    have hctx := h.context a List.mem_cons_self
    cases hF : s.context a with
    | none =>
      exact .inl ⟨_, exec_hashStateFold_of_absent ha hF,
        exec_hashStateFold_of_absent (h.nctx ▸ ha) (hctx.trans hF)⟩
    | some F =>
      exact actsAlike_of_update (foldContext_update _ F) (exec_hashStateFold_of_context hF)
        (exec_hashStateFold_of_context (hctx.trans hF))
  | hashStateEqual a b =>
    have hbmem : b ∈ namedContexts (.hashStateEqual a b) := List.mem_cons_of_mem a List.mem_cons_self
    have ha : a < s.nctx := lt_nctx_of_not_badContext hbad List.mem_cons_self
    have hb : b < s.nctx := lt_nctx_of_not_badContext hbad hbmem
    have hctxa := h.context a List.mem_cons_self
    have hctxb := h.context b hbmem
    by_cases habsent : s.context a = none ∨ s.context b = none
    · have habsent' : s'.context a = none ∨ s'.context b = none := by rwa [hctxa, hctxb]
      exact .inl ⟨_, exec_hashStateEqual_of_absent ha hb habsent,
        exec_hashStateEqual_of_absent (h.nctx ▸ ha) (h.nctx ▸ hb) habsent'⟩
    · obtain ⟨hva, hvb⟩ := not_or.mp habsent
      obtain ⟨F, hF⟩ := Option.ne_none_iff_exists'.mp hva
      obtain ⟨G, hG⟩ := Option.ne_none_iff_exists'.mp hvb
      exact actsAlike_of_update (.respond _ _ _) (exec_hashStateEqual_of_contexts hF hG)
        (exec_hashStateEqual_of_contexts (hctxa.trans hF) (hctxb.trans hG))

theorem ReadsAlike.refl (i : Instr) (s : State) : ReadsAlike i s s :=
  ⟨rfl, rfl, rfl, rfl, fun _ _ => rfl, fun _ _ => rfl⟩

/-- Where a command answers, it makes the same update in every state that reads alike. -/
theorem exists_update_of_exec {i : Instr} {s s' t : State} (h : ReadsAlike i s s') (ht : exec i s = .next t) :
    ∃ f, Update i f ∧ t = f s ∧ exec i s' = .next (f s') := by
  rcases actsAlike_of_readsAlike h with ⟨r, hr, -⟩ | ⟨f, hf, hs, hs'⟩
  · cases hr.symm.trans ht
  · exact ⟨f, hf, Host.Outcome.next.inj (ht.symm.trans hs), hs'⟩

/-! What an update leaves alone. -/

/-- An update writes only contexts the command names (10_state.md R21). -/
theorem Update.setContext {i : Instr} {f : State → State} (hf : Update i f) {c : Nat} (hc : c ∉ namedContexts i)
    (s : State) (G : FullState) : f (s.setContext c G) = (f s).setContext c G := by
  have hcomm : ∀ (a : Nat) (F : FullState), a ∈ namedContexts i →
      (s.setContext c G).setContext a F = (s.setContext a F).setContext c G := by
    intro a F ha
    have hne : c ≠ a := fun he => hc (he ▸ ha)
    simp only [State.setContext, List.set_comm _ _ hne]
  cases hf with
  | respond | minimal | working | generate => rfl
  | init a seed => exact congrArg State.respondDone (hcomm a _ List.mem_cons_self)
  | stream a ptr len F => exact congrArg State.respondDone (hcomm a _ List.mem_cons_self)

/-- The contexts after an update are made of the contexts before it. -/
theorem Update.contexts_congr {i : Instr} {f : State → State} (hf : Update i f) {s s' : State}
    (h : s'.contexts = s.contexts) : (f s').contexts = (f s).contexts := by
  cases hf with
  | respond | minimal | working | generate => exact h
  | init a seed => exact congrArg (List.set · a (some (fullInit seed))) h
  | stream a ptr len G => exact congrArg (List.set · a (some G)) h

/-- The response an update adds does not depend on the state. -/
theorem Update.lastResponse_eq {i : Instr} {f : State → State} (hf : Update i f) (s s' : State) :
    lastResponse (f s') = lastResponse (f s) := by
  cases hf <;> simp [lastResponse]

/-- The memory an update finds is seen in the memory alone. -/
theorem Update.setMem {i : Instr} {f : State → State} (hf : Update i f) (s : State) (m : Memory) :
    f (s.setMem m) = (f s).setMem (f (s.setMem m)).mem := by
  cases hf <;> rfl

/-- An update reads neither transient file (10_state.md R26). -/
theorem Update.transient {i : Instr} {f : State → State} (hf : Update i f) (s : State) (M : MinimalState)
    (W : FullState) : ∃ M' W', f ((s.setMin M).setWork W) = ((f s).setMin M').setWork W' := by
  cases hf with
  | minimal _ N v => exact ⟨N, W, rfl⟩
  | working _ V v => exact ⟨M, V, rfl⟩
  | respond | generate | init | stream => exact ⟨M, W, rfl⟩

/-- A fold updates no context (45_streaming_hash.md R168). -/
theorem Update.fold_contexts {a : Nat} {f : State → State} (hf : Update (.hashStateFold a) f) (s : State) :
    (f s).contexts = s.contexts := by
  cases hf <;> rfl

/-- A fold leaves alone everything a later command reads. -/
theorem Update.fold_readsAlike {a : Nat} {f : State → State} (hf : Update (.hashStateFold a) f) (i : Instr)
    (s : State) : ReadsAlike i s (f s) := by
  cases hf <;> exact ⟨rfl, rfl, rfl, rfl, fun _ _ => rfl, fun _ _ => rfl⟩

/-- `GENERATE` answers exactly the stores of its stream (47_generate.md R196). -/
theorem exec_generate_eq_next {s t : State} {dst len nonce : Word64} (h : exec (.generate dst len nonce) s = .next t) :
    t = (s.setMem (writeBytes s.mem dst.toNat (generatorBytes nonce len.toNat))).respondDone := by
  by_cases hadm : WriteAdmitted s dst.toNat len.toNat
  · exact Host.Outcome.next.inj (h.symm.trans (exec_generate_of_admitted hadm nonce))
  · obtain ⟨r, hr⟩ := exists_writeViolation hadm
    cases (exec_generate_of_writeViolation hr nonce).symm.trans h

/-- What the destination of `GENERATE` reads as: byte `k mod 16` of `block_(k div 16)` (47_generate.md R196). -/
theorem readByte_generatorBytes {m : Memory} (hwf : m.wf = true) (nonce : Word64) {a n k : Nat} (hk : k < n) :
    readByte (writeBytes m a (generatorBytes nonce n)) (a + k) =
      blockByte (generatorBlock nonce (k / 16)) (k % 16) := by
  rw [readByte_writeBytes _ _ _ hwf, generatorBytes_length, if_pos (by omega), Nat.add_sub_cancel_left,
    List.getD_eq_getElem?_getD, generatorBytes_getElem?, if_pos hk, Option.getD_some]

/-- The bytes stored at a destination do not depend on the memory they are stored in. -/
theorem readByte_of_inDestination {i : Instr} {s s' t t' : State} (hwf : s.mem.wf = true) (hwf' : s'.mem.wf = true)
    (h : exec i s = .next t) (h' : exec i s' = .next t') {x : Nat} (hx : inDestination i x = true) :
    readByte t.mem x = readByte t'.mem x := by
  cases i with
  | generate dst len nonce =>
    obtain ⟨hlow, hhigh⟩ : dst.toNat ≤ x ∧ x < dst.toNat + len.toNat := by simpa [inDestination, inRange] using hx
    obtain ⟨k, rfl⟩ := Nat.exists_eq_add_of_le hlow
    have hk : k < len.toNat := by omega
    obtain rfl := exec_generate_eq_next h
    obtain rfl := exec_generate_eq_next h'
    exact (readByte_generatorBytes hwf nonce hk).trans (readByte_generatorBytes hwf' nonce hk).symm
  | _ => cases hx

/-- Two states that agree off the transient files are one state with other files written. -/
theorem sameOffTransient_iff (s s' : State) : SameOffTransient s s' ↔ ∃ M W, s' = (s.setMin M).setWork W := by
  constructor
  · intro h
    exact ⟨s'.min, s'.work, h⟩
  · rintro ⟨M, W, rfl⟩
    rfl

/-- Commands act alike whatever the transient files hold (10_state.md R26). -/
theorem exec_sameOffTransient (i : Instr) {s s' : State} (h : SameOffTransient s s') :
    SameOutcomeOffTransient (exec i s) (exec i s') := by
  obtain ⟨M, W, rfl⟩ := (sameOffTransient_iff s s').mp h
  rcases actsAlike_of_readsAlike (i := i) (s := s) (s' := (s.setMin M).setWork W)
    ⟨rfl, rfl, rfl, rfl, fun _ _ => rfl, fun _ _ => rfl⟩ with ⟨r, hr, hr'⟩ | ⟨f, hf, ht, ht'⟩
  · rw [hr, hr']
    rfl
  · rw [ht, ht']
    exact (sameOffTransient_iff _ _).mpr (hf.transient s M W)

theorem afterResponse_sameOffTransient {o o' : Host.Outcome State Fault Refusal} (h : SameOutcomeOffTransient o o') :
    SameOutcomeOffTransient (afterResponse o) (afterResponse o') := by
  cases o with
  | next t =>
    cases o' with
    | next t' =>
      obtain ⟨M, W, rfl⟩ := (sameOffTransient_iff t t').mp h
      exact (sameOffTransient_iff _ _).mpr ⟨M, W, rfl⟩
    | fault f => cases f
    | refused r => exact h.elim
  | fault f => cases f
  | refused r =>
    cases o' with
    | next t' => exact h.elim
    | fault f => cases f
    | refused r' => exact h

/-- The three cases of a step, with other transient files. -/
theorem step_sameOffTransient {s s' : State} (h : SameOffTransient s s') :
    SameOutcomeOffTransient (step s) (step s') := by
  obtain ⟨M, W, rfl⟩ := (sameOffTransient_iff s s').mp h
  cases hs : s.host with
  | nil =>
    have hs' : ((s.setMin M).setWork W).host = [] := hs
    simp only [step, hs, hs']
    exact h
  | cons req rest =>
    have hs' : ((s.setMin M).setWork W).host = req :: rest := hs
    cases hd : decodeWords (requestWords req) with
    | error e =>
      rw [step_of_illegal hs hd, step_of_illegal hs' hd]
      exact (sameOffTransient_iff _ _).mpr ⟨M, W, rfl⟩
    | ok i =>
      rw [step_of_legal hs hd, step_of_legal hs' hd]
      exact afterResponse_sameOffTransient (exec_sameOffTransient i ((sameOffTransient_iff _ _).mpr ⟨M, W, rfl⟩))

theorem run_succ_of_next {M : Host.Core} {s u : M.State} (h : M.step s = .next u) (k : Nat) :
    M.run (k + 1) s = M.run k u := by
  rw [Host.Core.run, h]

theorem run_succ_of_refused {M : Host.Core} {s : M.State} {r : M.Refusal} (h : M.step s = .refused r) (k : Nat) :
    M.run (k + 1) s = .refused r := by
  rw [Host.Core.run, h]

/-- Runs keep the agreement off the transient files, by induction on the number of steps. -/
theorem run_sameOffTransient (k : Nat) {s s' : State} (h : SameOffTransient s s') :
    SameOutcomeOffTransient (Sys2Proof.core.run k s) (Sys2Proof.core.run k s') := by
  induction k generalizing s s' with
  | zero => exact h
  | succ k ih =>
    have hstep := step_sameOffTransient h
    cases ht : step s with
    | next t =>
      cases ht' : step s' with
      | next t' =>
        have hrun : Sys2Proof.core.run (k + 1) s = Sys2Proof.core.run k t := run_succ_of_next ht k
        have hrun' : Sys2Proof.core.run (k + 1) s' = Sys2Proof.core.run k t' := run_succ_of_next ht' k
        rw [ht, ht'] at hstep
        rw [hrun, hrun']
        exact ih hstep
      | fault f => cases f
      | refused r => rw [ht, ht'] at hstep; exact hstep.elim
    | fault f => cases f
    | refused r =>
      cases ht' : step s' with
      | next t' => rw [ht, ht'] at hstep; exact hstep.elim
      | fault f => cases f
      | refused r' =>
        have hrun : Sys2Proof.core.run (k + 1) s = .refused r := run_succ_of_refused ht k
        have hrun' : Sys2Proof.core.run (k + 1) s' = .refused r' := run_succ_of_refused ht' k
        rw [ht, ht'] at hstep
        rw [hrun, hrun']
        exact hstep

/-- Writing a context the command does not name changes nothing it reads. -/
theorem readsAlike_setContext {i : Instr} {c : Nat} (hc : c ∉ namedContexts i) (s : State) (G : FullState) :
    ReadsAlike i s (s.setContext c G) where
  addrW := rfl
  genDstAlign := rfl
  grant := rfl
  nctx := State.setContext_nctx s c G
  context _ hd := State.setContext_context_other s G fun he => hc (he ▸ hd)
  byte _ _ := rfl

end Sys2Proof.Machine

/-! The obligations about what a command reads. -/

namespace Sys2Proof.Proofs

open Sys2Proof.Machine Sys2Proof.Safety

/-- Settles O50: the command acts alike, and its update does not touch the context. -/
theorem contextsShareNothing : Obligations.ContextsShareNothing := by
  intro i s c G hc
  rcases actsAlike_of_readsAlike (readsAlike_setContext hc s G) with ⟨r, hr, hr'⟩ | ⟨f, hf, ht, ht'⟩
  · rw [hr, hr']
    rfl
  · rw [ht, ht', hf.setContext hc]
    rfl

/-- Settles O51: every step keeps the agreement off the transient files. -/
theorem transientFilesUnobservable : Obligations.TransientFilesUnobservable := fun k _ _ => run_sameOffTransient k

/-- Settles O48: the command acts alike in the two memories, and stores bytes that come from its operands. -/
theorem readsStayInText : Obligations.ReadsStayInText := by
  intro i s m h
  have halike : ReadsAlike i s (s.setMem m) := ⟨rfl, rfl, rfl, rfl, fun _ _ => rfl, h⟩
  constructor
  · change SameOutcomeOffMemory (exec i s) (exec i (s.setMem m))
    rcases actsAlike_of_readsAlike halike with ⟨r, hr, hr'⟩ | ⟨f, hf, ht, ht'⟩
    · rw [hr, hr']
      rfl
    · rw [ht, ht']
      exact hf.setMem s m
  · intro hwf hwf' t u ht hu x
    by_cases hx : inDestination i x = true
    · rw [if_pos hx]
      exact readByte_of_inDestination hwf hwf' ht hu hx
    · rw [if_neg hx]
      have hout := Bool.eq_false_of_not_eq_true hx
      exact ⟨readByte_of_exec ht hout, readByte_of_exec hu hout⟩

/-- Settles O36: a fold leaves alone what any later command reads, so the same command acts alike after it. -/
theorem streamAfterFold : Obligations.StreamAfterFold := by
  intro s t a h
  obtain ⟨f, hf, rfl, -⟩ := exists_update_of_exec (ReadsAlike.refl _ s) h
  refine ⟨hf.fold_contexts s, ?_, fun ptr len v hv => ?_⟩
  · obtain ⟨g, hg, hfg, hagain⟩ := exists_update_of_exec (hf.fold_readsAlike _ s) h
    refine ⟨g (f s), hagain, ?_, (hg.fold_contexts _).trans (hf.fold_contexts s)⟩
    rw [hg.lastResponse_eq s (f s), ← hfg]
  · obtain ⟨g, hg, rfl, hafter⟩ := exists_update_of_exec (hf.fold_readsAlike _ s) hv
    exact ⟨_, hafter, hg.contexts_congr (hf.fold_contexts s)⟩

end Sys2Proof.Proofs

/-! SUPPORT. The blocks of a short text and the lanes of its zero-filled chunk (44_single_shot_hash.md R152, R153). -/

namespace Sys2Proof.Machine

/-- Past the end of the text a block is zero, so a load that reaches the end is a load of sixteen bytes. -/
theorem loadBlock_of_end_le {text : List Byte} {off n : Nat} (h : text.length ≤ off + n) :
    loadBlock text off n = loadBlock text off 16 := by
  apply block_ext
  intro i hi
  rw [blockByte_loadBlock _ _ _ _ hi, blockByte_loadBlock _ _ _ _ hi, if_pos hi]
  split
  · rfl
  · exact (List.getD_eq_default _ _ (by omega)).symm

/-- Shifting a loaded block is loading less of it, further on. -/
theorem shrBytes_loadBlock (text : List Byte) (off s : Nat) :
    shrBytes (loadBlock text off 16) s = loadBlock text (off + s) (16 - s) := by
  apply block_ext
  intro i hi
  rw [blockByte_shrBytes _ _ _ hi, blockByte_loadBlock _ _ _ _ hi]
  by_cases h : i + s ≤ 15
  · rw [if_pos h, if_pos (by omega), blockByte_loadBlock _ _ _ _ (by omega), if_pos (by omega),
      show off + (i + s) = off + s + i by omega]
  · rw [if_neg h, if_neg (by omega)]

/-- The last block of a text of more than 16 bytes, that fills `k` blocks and begins another: it is loaded from the last
sixteen bytes and shifted, and is the zero-filled tail (R153). -/
theorem shrBytes_lastBlock {text : List Byte} {k : Nat} (hk : 1 ≤ k) (hlow : 16 * k < text.length)
    (hhigh : text.length ≤ 16 * k + 16) :
    shrBytes (loadBlock text (text.length - 16) 16) (16 * k + 16 - text.length) = loadBlock text (16 * k) 16 := by
  rw [shrBytes_loadBlock, show text.length - 16 + (16 * k + 16 - text.length) = 16 * k by omega]
  exact loadBlock_of_end_le (by omega)

theorem lane_loadChunk_length (text : List Byte) {i : Nat} (hi : i < 4) :
    (loadChunk text 0 text.length).lane i = loadBlock text (16 * i) 16 := by
  rw [loadChunk, Reg512.lane_ofLanes _ _ hi, List.drop_zero, List.take_length]

/-- The blocks of a text that fills `k` blocks and begins another, or has none: the first `k + 1` sixteen-byte loads. -/
theorem blocks_eq_loads {text : List Byte} {k : Nat} (hlow : 16 * k < text.length ∨ k = 0)
    (hhigh : text.length ≤ 16 * k + 16) (hk : k < 4) :
    blocks text = (List.range (k + 1)).map fun i => loadBlock text (16 * i) 16 := by
  unfold blocks
  match k with
  | 0 =>
    rw [if_pos (by omega), loadBlock_of_end_le (by omega)]
    rfl
  | 1 =>
    rw [if_neg (by omega), if_pos (by omega), shrBytes_lastBlock (k := 1) (by omega) (by omega) (by omega)]
    rfl
  | 2 =>
    rw [if_neg (by omega), if_neg (by omega), if_pos (by omega),
      shrBytes_lastBlock (k := 2) (by omega) (by omega) (by omega)]
    rfl
  | 3 =>
    rw [if_neg (by omega), if_neg (by omega), if_neg (by omega),
      shrBytes_lastBlock (k := 3) (by omega) (by omega) (by omega)]
    rfl

/-- The blocks of a short text are lanes of the zero-filled chunk (R153). -/
theorem blocks_eq_lanes {text : List Byte} (h : text.length ≤ 64) :
    blocks text = (List.range (max 1 ((text.length + 15) / 16))).map (loadChunk text 0 text.length).lane := by
  obtain ⟨k, hk⟩ : ∃ k, max 1 ((text.length + 15) / 16) = k + 1 := ⟨max 1 ((text.length + 15) / 16) - 1, by omega⟩
  rw [hk, blocks_eq_loads (k := k) (by omega) (by omega) (by omega)]
  refine List.map_congr_left fun i hi => ?_
  have hi' : i < k + 1 := List.mem_range.mp hi
  exact (lane_loadChunk_length text (by omega)).symm

/-! The long hash, chunk by chunk (44_single_shot_hash.md R154). -/

/-- The register file after the first `k` chunks of a text, each filled up with zeros. -/
def absorbPadded (W : FullState) (text : List Byte) (k : Nat) : FullState :=
  (List.range k).foldl
    (fun W q => fullAbsorb64 { W with ins := loadChunk text (64 * q) (min 64 (text.length - 64 * q)) }) W

theorem absorbPadded_succ (W : FullState) (text : List Byte) (k : Nat) :
    absorbPadded W text (k + 1) =
      absorbChunk (absorbPadded W text k) (loadChunk text (64 * k) (min 64 (text.length - 64 * k))) := by
  simp only [absorbPadded, List.range_succ, List.foldl_append, List.foldl_cons, List.foldl_nil, absorbChunk]

/-- Whole chunks need no filling. -/
theorem absorbPadded_eq_absorbChunks (W : FullState) {text : List Byte} {k : Nat} (h : 64 * k ≤ text.length) :
    absorbPadded W text k = absorbChunks W text k := by
  induction k with
  | zero => rfl
  | succ k ih => rw [absorbPadded_succ, absorbChunks_succ, ih (by omega), Nat.min_eq_left (by omega)]

/-- The chunks of a text are its whole chunks and, if there is one, its tail. -/
theorem absorbPadded_ceil (W : FullState) (text : List Byte) :
    absorbPadded W text ((text.length + 63) / 64) =
      if 0 < text.length % 64 then
        absorbChunk (absorbChunks W text (text.length / 64))
          (loadChunk text (64 * (text.length / 64)) (text.length % 64))
      else absorbChunks W text (text.length / 64) := by
  have hwhole := absorbPadded_eq_absorbChunks W (Nat.mul_div_le text.length 64)
  split
  · rw [show (text.length + 63) / 64 = text.length / 64 + 1 by omega, absorbPadded_succ, hwhole,
      show min 64 (text.length - 64 * (text.length / 64)) = text.length % 64 by omega]
  · rw [show (text.length + 63) / 64 = text.length / 64 by omega, hwhole]

/-! A context that streams (45_streaming_hash.md R167, R174; 10_state.md R33). -/

@[simp] theorem streamText_key (F : FullState) (text : List Byte) : (streamText F text).key = F.key := by
  induction text generalizing F with
  | nil => rfl
  | cons b bs ih => rw [streamText_cons, ih, streamByte_key]

theorem streamText_insLength (F : FullState) (text : List Byte) :
    (streamText F text).insLength = F.insLength + BitVec.ofNat 64 text.length := by
  induction text generalizing F with
  | nil => exact (BitVec.add_zero _).symm
  | cons b bs ih =>
    rw [streamText_cons, ih, streamByte_insLength, List.length_cons, Nat.add_comm, BitVec.ofNat_add, BitVec.add_assoc]
    rfl

theorem toNat_streamText_insLength (F : FullState) (text : List Byte) :
    (streamText F text).insLength.toNat = (F.insLength.toNat + text.length) % 2 ^ 64 := by
  rw [streamText_insLength, BitVec.toNat_add, BitVec.toNat_ofNat, Nat.add_mod_mod]

/-- 64 divides `2 ^ 64`, so the fill level does not see a wrap of the counter (R174). -/
theorem fillLevel_streamText (F : FullState) (text : List Byte) :
    fillLevel (streamText F text) = (fillLevel F + text.length) % 64 := by
  rw [fillLevel, fillLevel, toNat_streamText_insLength]
  omega

/-- A tail that reaches the end of the text, loaded from its own beginning. -/
theorem loadChunk_drop (text : List Byte) (off n : Nat) : loadChunk (text.drop off) 0 n = loadChunk text off n := rfl

/-- What is staged in a context is the tail of the text, and the staging buffer is that tail filled up with zeros. -/
theorem blocks_stagedText {seed : Word64} {text : List Byte}
    (h : (streamedContext seed text).insLength.toNat < 64) :
    blocks (stagedText (streamedContext seed text)) =
      (List.range (max 1 (((streamedContext seed text).insLength.toNat + 15) / 16))).map
        (streamedContext seed text).ins.lane := by
  obtain ⟨tail, htail⟩ : ∃ tail, tail = text.drop (64 * (text.length / 64)) := ⟨_, rfl⟩
  have hlen : tail.length = text.length % 64 := by rw [htail, List.length_drop]; omega
  have hcount : (streamedContext seed text).insLength.toNat = tail.length := by
    rw [streamedContext_insLength, BitVec.toNat_ofNat] at h ⊢
    omega
  have hins : (streamedContext seed text).ins = loadChunk tail 0 tail.length := by
    rw [streamedContext_ins, htail, loadChunk_drop, ← htail, hlen]
  rw [stagedText, hcount, hins, take_bytes_loadChunk (by omega), blocks_eq_lanes (by omega)]

end Sys2Proof.Machine

/-! The obligations about the hash functions. -/

namespace Sys2Proof.Proofs

open Sys2Proof.Machine Sys2Proof.Safety

/-- Settles O19: the shifted last block is a shorter load, and every load is a lane of the chunk. -/
theorem shortBlocksAreChunkLanes : Obligations.ShortBlocksAreChunkLanes := by
  refine ⟨fun text hlow _ => ⟨by omega, ?_⟩, fun text h => blocks_eq_lanes h⟩
  rw [shrBytes_loadBlock]
  congr 1
  omega

/-- Settles O25: the whole chunks and the tail of R154 are the chunks filled up with zeros. -/
theorem longHashAbsorbsChunks : Obligations.LongHashAbsorbsChunks := by
  intro text seed _
  rw [longHashFile_eq, ← absorbPadded_ceil]
  rfl

/-- Settles O28: both sides are read off the generator's stream byte by byte. -/
theorem generatePrefix : Obligations.GeneratePrefix :=
  fun nonce n _ h => ⟨generatorBytes_length nonce n, generatorBytes_eq_take nonce h⟩

/-- Settles O31: streaming into a fresh context makes the context that R33 describes. -/
theorem contextContents : Obligations.ContextContents := by
  intro seed text hlen F n W
  have hF : F = streamedContext seed text := streamText_fullInit seed text
  refine ⟨streamText_key _ _, ?_, fun j hj => ?_, ?_, ?_⟩
  · rw [hF, streamedContext_insLength, BitVec.toNat_ofNat, Nat.mod_eq_of_lt hlen]
  · rw [hF, streamedContext_ins, Reg512.byte_loadChunk _ _ _ _ hj, show 64 * (text.length / 64) = n - n % 64 by omega]
  · rw [hF]
    rfl
  · rw [hF]
    rfl

/-- Settles O33: the counter counts modulo `2 ^ 64`, and so modulo 64. -/
theorem streamedLengthWraps : Obligations.StreamedLengthWraps :=
  fun F text => ⟨toNat_streamText_insLength F text, fillLevel_streamText F text⟩

/-- Settles O35: the file is the context of R33 of its text, whose staged bytes are the tail of the text. -/
theorem shortFoldAbsorbsStagingLanes : Obligations.ShortFoldAbsorbsStagingLanes := by
  rintro F ⟨seed, text, rfl⟩ h
  rw [streamText_fullInit] at h ⊢
  exact blocks_stagedText h

/-- Settles O20: the words 0, 1, 8 and 9 of the table. -/
theorem minimalInitIsLaneZero : Obligations.MinimalInitIsLaneZero := fun _ => ⟨rfl, rfl, rfl, rfl⟩

/-- Settles O21: lane by lane. -/
theorem fullAbsorbIsFourMinAbsorbs : Obligations.FullAbsorbIsFourMinAbsorbs := by
  intro X
  refine ⟨rfl, rfl, rfl, fun i hi => ?_⟩
  rw [fullAbsorb64, Reg512.lane_ofLanes _ _ hi, Reg512.lane_ofLanes _ _ hi, minAbsorb]

end Sys2Proof.Proofs

/-! SUPPORT. What the commands that answer leave behind, command by command (44_single_shot_hash.md R151, R156;
45_streaming_hash.md R166 to R169). -/

namespace Sys2Proof.Machine

open Sys2Proof.Safety

theorem hashText_of_le {text : List Byte} (h : text.length ≤ 64) (seed : Word64) (s : State) :
    hashText text seed s = (s.setMin (shortHashFile text seed)).respondWord
      (minFinalize ((blocks text).foldl minAbsorb (minInit seed)) (BitVec.ofNat 64 text.length)) := by
  rw [hashText, if_pos h]
  rfl

theorem hashText_of_gt {text : List Byte} (h : 64 < text.length) (seed : Word64) (s : State) :
    hashText text seed s =
      (s.setWork (longHashFile text seed)).respondWord (fullFinalize (longHashFile text seed)) := by
  rw [hashText, if_neg (Nat.not_le.mpr h)]

/-- `HASH` writes no context and no memory (44_single_shot_hash.md R156). -/
theorem hashText_frame (text : List Byte) (seed : Word64) (s : State) :
    (hashText text seed s).contexts = s.contexts ∧ (hashText text seed s).mem = s.mem := by
  unfold hashText
  split <;> exact ⟨rfl, rfl⟩

theorem exec_hash_eq_next {s t : State} {ptr len seed : Word64} (h : exec (.hash ptr len seed) s = .next t) :
    t = hashText (textAt s ptr len) seed s := by
  have hadm := readAdmitted_of_exec (i := .hash ptr len seed) ⟨rfl, rfl⟩ h
  exact Host.Outcome.next.inj (h.symm.trans (exec_hash_of_admitted hadm seed))

/-- A stream of a context in range that answers: the context held a value, and holds that value streamed into. -/
theorem exec_hashStateStream_eq_next {s t : State} {a : Nat} {ptr len : Word64} (ha : a < s.nctx)
    (h : exec (.hashStateStream a ptr len) s = .next t) :
    ∃ F, s.context a = some F ∧ t.context a = some (streamText F (textAt s ptr len)) := by
  cases hF : s.context a with
  | none => cases (exec_hashStateStream_of_absent ha hF ptr len).symm.trans h
  | some F =>
    have hadm := readAdmitted_of_exec (i := .hashStateStream a ptr len) ⟨by simp [HoldsValue, hF], rfl, rfl⟩ h
    obtain rfl := Host.Outcome.next.inj (h.symm.trans (exec_hashStateStream_of_admitted hF hadm))
    exact ⟨F, rfl, State.setContext_context_self s _ ha⟩

theorem foldContext_of_tail {F : FullState} (hlong : 64 ≤ F.insLength.toNat) (htail : 0 < F.insLength.toNat % 64)
    (s : State) : foldContext F s = (s.setWork (fullAbsorb64 F)).respondWord (fullFinalize (fullAbsorb64 F)) := by
  rw [foldContext, if_pos hlong, fillLevel, if_pos htail]

theorem foldContext_of_no_tail {F : FullState} (hlong : 64 ≤ F.insLength.toNat) (htail : F.insLength.toNat % 64 = 0)
    (s : State) : foldContext F s = s.respondWord (fullFinalize F) := by
  rw [foldContext, if_pos hlong, fillLevel, if_neg (by omega)]

theorem foldContext_of_short {F : FullState} (h : F.insLength.toNat < 64) (s : State) :
    foldContext F s = (s.setMin (foldMinFile F)).respondWord (minFinalize (foldMinFile F) F.insLength) := by
  rw [foldContext, if_neg (Nat.not_le.mpr h)]

/-- Two 512-bit registers are equal exactly when their lanes are. -/
theorem Reg512.eq_iff_lanes (r q : Reg512) : r = q ↔ ∀ i < 4, r.lane i = q.lane i :=
  ⟨fun h _ _ => h ▸ rfl, Reg512.ext_lanes⟩

theorem contextsMatch_iff (F G : FullState) :
    contextsMatch F G = true ↔ F.key = G.key ∧ ∀ i < 4, F.aes.lane i = G.aes.lane i ∧ F.sum.lane i = G.sum.lane i := by
  have hlanes : (∀ i < 4, F.aes.lane i = G.aes.lane i ∧ F.sum.lane i = G.sum.lane i) ↔
      F.aes = G.aes ∧ F.sum = G.sum := by
    rw [Reg512.eq_iff_lanes, Reg512.eq_iff_lanes, ← forall₂_and]
  rw [hlanes]
  simp [contextsMatch, and_assoc]

end Sys2Proof.Machine

/-! The obligations about the results of commands. -/

namespace Sys2Proof.Proofs

open Sys2Proof.Machine Sys2Proof.Safety

/-- Settles O24: an admitted `HASH` is `hashText`, by the length of the text. -/
theorem hashResult : Obligations.HashResult := by
  intro s ptr len seed h text
  have hlen : text.length = len.toNat := textAt_length s ptr len
  rw [exec_hash_of_admitted h]
  refine ⟨fun hshort => ⟨shortHashFile text seed, ?_⟩, fun hlong => ⟨longHashFile text seed, ?_⟩⟩
  · rw [hashText_of_le (hlen.trans_le hshort), textAt_length, BitVec.ofNat_toNat, BitVec.setWidth_eq]
    rfl
  · rw [hashText_of_gt (hlong.trans_eq hlen.symm)]
    rfl

/-- Settles O26: the response is that of the text and the seed. -/
theorem hashIsPure : Obligations.HashIsPure := by
  intro s s' t t' ptr ptr' len len' seed h h' htext
  obtain rfl := exec_hash_eq_next h
  obtain rfl := exec_hash_eq_next h'
  obtain ⟨hctx, hmem⟩ := hashText_frame (textAt s ptr len) seed s
  exact ⟨by rw [lastResponse_hashText, lastResponse_hashText, htext], hctx, hmem⟩

/-- Settles O27: the stored bytes are those of the stream, the others are not in the destination. -/
theorem generateResult : Obligations.GenerateResult := by
  intro s dst len nonce hwf hadm
  refine ⟨_, exec_generate_of_admitted hadm nonce, fun k hk => readByte_generatorBytes hwf nonce hk, fun x hx => ?_⟩
  exact readByte_writeBytes_of_not_mem _ _ _ (by rwa [generatorBytes_length])

/-- Settles O29: the context is `FULL.INIT`, whose registers are given lane by lane. -/
theorem initResult : Obligations.InitResult := by
  intro s a seed ha
  refine ⟨_, fullInit seed, exec_hashStateInit_of_lt ha seed, rfl, State.setContext_nctx _ _ _,
    State.setContext_context_self s _ ha, fun c hc => State.setContext_context_other s _ hc, rfl, rfl, fun i hi => ?_⟩
  refine ⟨Reg512.lane_ofLanes _ i hi, Reg512.lane_ofLanes _ i hi, ?_⟩
  interval_cases i <;> rfl

/-- Settles O30: the byte loop is `streamText`. -/
theorem streamResult : Obligations.StreamResult := by
  intro s a ptr len F hF hadm
  refine ⟨_, streamText F (textAt s ptr len), exec_hashStateStream_of_admitted hF hadm, rfl,
    State.setContext_nctx _ _ _, State.setContext_context_self s _ (lt_nctx_of_context hF),
    fun c hc => State.setContext_context_other s _ hc, rfl, streamText_key _ _, ?_, ?_⟩
  · rw [streamText_insLength, textAt_length, BitVec.ofNat_toNat, BitVec.setWidth_eq]
  · rintro rfl
    rfl

/-- Settles O32: streaming two texts one after the other streams their concatenation. -/
theorem streamSplitting : Obligations.StreamSplitting := by
  intro s s' s'' t t' t'' a ptr len ptr' len' ptr'' len'' ha ha' ha'' h h' h'' hnext hsame htext
  obtain ⟨F, hF, ht⟩ := exec_hashStateStream_eq_next ha h
  obtain ⟨F', hF', ht'⟩ := exec_hashStateStream_eq_next ha' h'
  obtain ⟨F'', hF'', ht''⟩ := exec_hashStateStream_eq_next ha'' h''
  obtain rfl : F' = streamText F (textAt s ptr len) := Option.some.inj (by rw [← hF', hnext, ht])
  obtain rfl : F'' = F := Option.some.inj (by rw [← hF'', hsame, hF])
  rw [ht', ht'', htext, streamText_append]

/-- Settles O34: the three branches of a fold, selected by the counter. -/
theorem foldResult : Obligations.FoldResult := by
  intro s a F hF L
  rw [exec_hashStateFold_of_context hF]
  refine ⟨fun hlong htail => ⟨fullAbsorb64 F, ?_⟩, fun hlong htail => ?_, fun hshort => ⟨foldMinFile F, ?_⟩⟩
  · rw [foldContext_of_tail hlong htail]
    rfl
  · rw [foldContext_of_no_tail hlong htail]
    rfl
  · rw [foldContext_of_short hshort]
    rfl

/-- Settles O37: the comparison answers whether the two files agree in `key`, `aes` and `sum`. -/
theorem equalResult : Obligations.EqualResult := by
  refine ⟨fun s a b F G hF hG => ?_, fun F r n => ?_, by decide⟩
  · refine ⟨_, exec_hashStateEqual_of_contexts hF hG, ?_, ?_, ?_⟩
    · split
      · exact .inl rfl
      · exact .inr rfl
    · rw [← contextsMatch_iff]
      cases contextsMatch F G <;> simp
    · rintro rfl
      obtain rfl : F = G := Option.some.inj (hF.symm.trans hG)
      exact if_pos ((contextsMatch_iff F F).mpr ⟨rfl, fun _ _ => ⟨rfl, rfl⟩⟩)
  · exact (contextsMatch_iff F _).mpr ⟨rfl, fun _ _ => ⟨rfl, rfl⟩⟩

end Sys2Proof.Proofs

/-! SUPPORT. The AES round byte by byte, and its inverses (40_aes_round.md R92 to R97, R100). -/

namespace Sys2Proof.Machine

/-- The affine map of the S-box undone (R92). -/
def affineInverse (s : Byte) : Byte := s.rotateLeft 1 ^^^ s.rotateLeft 3 ^^^ s.rotateLeft 6 ^^^ 0x05

/-- Undoing the affine map leaves a byte of which the affine map makes the byte again (R92). -/
theorem affine_affineInverse : ∀ s : Byte, ∀ i < 8, s.getLsbD i =
    ((affineInverse s).getLsbD i ^^ (affineInverse s).getLsbD ((i + 4) % 8) ^^
      (affineInverse s).getLsbD ((i + 5) % 8) ^^ (affineInverse s).getLsbD ((i + 6) % 8) ^^
      (affineInverse s).getLsbD ((i + 7) % 8) ^^ (0x63 : Byte).getLsbD i) := by
  decide +kernel

theorem affineInverse_sbox_zero : affineInverse (sbox 0) = 0 := by decide

/-- What stands before the affine map in the S-box is the inverse in GF(2^8) (R92). -/
theorem gmul_affineInverse_sbox : ∀ a : Byte, a ≠ 0 → gmul a (affineInverse (sbox a)) = 1 := by
  decide +kernel

/-- The inverse of the S-box: undo the affine map, then invert, which is the S-box with its affine map undone. -/
theorem sbox_leftInverse : ∀ a : Byte, affineInverse (sbox (affineInverse (sbox a))) = a := by
  decide +kernel

theorem sbox_injective : Function.Injective sbox :=
  Function.LeftInverse.injective (g := fun s => affineInverse (sbox (affineInverse s))) sbox_leftInverse

theorem sbox_ne_self : ∀ a : Byte, sbox a ≠ a := by
  decide +kernel

/-! The bytes of the round. -/

/-- The byte that `ShiftRows` brings to row `r` of column `c`, after `SubBytes` (R93, R94). -/
def roundByte (X : Block128) (c r : Nat) : Byte := sbox (blockByte X (r + 4 * ((c + r) % 4)))

theorem shiftRowsSource_lt (i : Nat) : shiftRowsSource i < 16 := by
  unfold shiftRowsSource
  omega

theorem blockByte_subBytes_shiftRows (X : Block128) {c r : Nat} (hc : c < 4) (hr : r < 4) :
    blockByte (subBytes (shiftRows X)) (4 * c + r) = roundByte X c r := by
  have hsource : shiftRowsSource (4 * c + r) = r + 4 * ((c + r) % 4) := by
    unfold shiftRowsSource
    omega
  rw [blockByte_subBytes _ _ (by omega), blockByte_shiftRows _ _ (by omega), hsource, roundByte]

theorem mixedColumn_subBytes_shiftRows (X : Block128) {c : Nat} (hc : c < 4) :
    mixedColumn (subBytes (shiftRows X)) c =
      mixColumn (roundByte X c 0) (roundByte X c 1) (roundByte X c 2) (roundByte X c 3) := by
  have hbyte := fun r => blockByte_subBytes_shiftRows X (c := c) (r := r) hc
  rw [mixedColumn, ← hbyte 0 (by omega), ← hbyte 1 (by omega), ← hbyte 2 (by omega), ← hbyte 3 (by omega)]
  rfl

/-- Row `r` of column `c` of the round (R97). -/
theorem blockByte_aesRound (X K : Block128) {c r : Nat} (hc : c < 4) (hr : r < 4) :
    blockByte (aesRound X K) (4 * c + r) =
      (mixColumn (roundByte X c 0) (roundByte X c 1) (roundByte X c 2) (roundByte X c 3)).getD r 0 ^^^
        blockByte K (4 * c + r) := by
  rw [aesRound, addRoundKey, blockByte_xor, blockByte_mixColumns _ _ _ hc hr, mixedColumn_subBytes_shiftRows X hc]

@[simp] theorem blockByte_zero (i : Nat) : blockByte 0 i = 0 := by simp [blockByte]

/-- The zero block becomes `0x63` in every byte, as each row of the matrix sums to 1 (R97). -/
theorem blockByte_aesRound_zero (K : Block128) {i : Nat} (hi : i < 16) :
    blockByte (aesRound 0 K) i = blockByte K i ^^^ 0x63 := by
  have hcol : ∀ r < 4, (mixColumn 0x63 0x63 0x63 0x63).getD r 0 = 0x63 := by decide
  have hbyte : ∀ c r, roundByte 0 c r = 0x63 := by
    intro c r
    rw [roundByte, blockByte_zero]
    rfl
  have hr : i % 4 < 4 := Nat.mod_lt i (by omega)
  have h := blockByte_aesRound 0 K (c := i / 4) (by omega) hr
  rw [Nat.div_add_mod, hbyte, hbyte, hbyte, hbyte, hcol _ hr] at h
  rw [h, BitVec.xor_comm]

/-- The round of the zero block under the zero key, and the round of FIPS-197 Appendix B (R97). -/
theorem aesRound_workedExamples :
    aesRound 0 0 = 0x63636363636363636363636363636363 ∧
    aesRound
      (blockOfBytes [0x19, 0x3d, 0xe3, 0xbe, 0xa0, 0xf4, 0xe2, 0x2b, 0x9a, 0xc6, 0x8d, 0x2a, 0xe9, 0xf8, 0x48, 0x08])
      (blockOfBytes [0xa0, 0xfa, 0xfe, 0x17, 0x88, 0x54, 0x2c, 0xb1, 0x23, 0xa3, 0x39, 0x39, 0x2a, 0x6c, 0x76, 0x05]) =
      blockOfBytes [0xa4, 0x9c, 0x7f, 0xf2, 0x68, 0x9f, 0x35, 0x2b, 0x6b, 0x5b, 0xea, 0x43, 0x02, 0x6a, 0x50, 0x49] := by
  decide +kernel

/-- Byte `i` of the round sees the key in byte `i` and the data in the four bytes of its column (R100). -/
theorem blockByte_aesRound_congr {X X' K K' : Block128} {i : Nat} (hi : i < 16)
    (hkey : blockByte K i = blockByte K' i)
    (hdata : ∀ r < 4, blockByte X (r + 4 * ((i / 4 + r) % 4)) = blockByte X' (r + 4 * ((i / 4 + r) % 4))) :
    blockByte (aesRound X K) i = blockByte (aesRound X' K') i := by
  have hc : i / 4 < 4 := by omega
  have hr : i % 4 < 4 := Nat.mod_lt i (by omega)
  have hbyte : ∀ r < 4, roundByte X (i / 4) r = roundByte X' (i / 4) r := fun r hr => congrArg sbox (hdata r hr)
  have h := blockByte_aesRound X K hc hr
  have h' := blockByte_aesRound X' K' hc hr
  rw [Nat.div_add_mod] at h h'
  rw [h, h', hbyte 0 (by omega), hbyte 1 (by omega), hbyte 2 (by omega), hbyte 3 (by omega), hkey]

/-! The round is a bijection for a fixed key: each of its four transformations is injective. -/

/-- A map that brings each of the sixteen bytes of a block to some place is injective. -/
theorem injective_of_moves_bytes {f : Block128 → Block128} {source : Nat → Nat}
    (hf : ∀ X, ∀ d < 16, blockByte (f X) d = blockByte X (source d)) (hsource : ∀ i < 16, ∃ d < 16, source d = i) :
    Function.Injective f := by
  intro X Y h
  apply block_ext
  intro i hi
  obtain ⟨d, hd, rfl⟩ := hsource i hi
  rw [← hf X d hd, ← hf Y d hd, h]

theorem shiftRows_injective : Function.Injective shiftRows :=
  injective_of_moves_bytes blockByte_shiftRows (by decide)

theorem shuffle_injective : Function.Injective shuffle :=
  injective_of_moves_bytes blockByte_shuffle (by decide)

theorem subBytes_injective : Function.Injective subBytes := by
  intro X Y h
  apply block_ext
  intro i hi
  apply sbox_injective
  rw [← blockByte_subBytes X i hi, ← blockByte_subBytes Y i hi, h]

theorem byte_xor_left_comm (a b c : Byte) : a ^^^ (b ^^^ c) = b ^^^ (a ^^^ c) := by
  rw [← BitVec.xor_assoc, BitVec.xor_comm a b, BitVec.xor_assoc]

/-- Multiplication by `x` is linear (R91). -/
theorem xtime_xor (a b : Byte) : xtime (a ^^^ b) = xtime a ^^^ xtime b := by
  simp only [xtime, BitVec.shiftLeft_xor_distrib, BitVec.getLsbD_xor]
  cases a.getLsbD 7 <;> cases b.getLsbD 7 <;>
    simp [BitVec.xor_assoc, BitVec.xor_comm, byte_xor_left_comm]

/-- An entry of a mixed column, by its byte, the next byte and the sum of the column. -/
def mixEntry (sum a next : Byte) : Byte := xtime (a ^^^ next) ^^^ (sum ^^^ a)

theorem mixColumn_eq_mixEntry {a0 a1 a2 a3 sum : Byte} (hsum : sum = a0 ^^^ a1 ^^^ a2 ^^^ a3) :
    mixColumn a0 a1 a2 a3 = [mixEntry sum a0 a1, mixEntry sum a1 a2, mixEntry sum a2 a3, mixEntry sum a3 a0] := by
  subst hsum
  simp [mixColumn, mixEntry, mul2, mul3, xtime_xor, BitVec.xor_assoc, BitVec.xor_comm,
    byte_xor_left_comm]

/-- Mixing keeps the sum of the column. -/
theorem sum_mixEntry {a0 a1 a2 a3 sum : Byte} (hsum : sum = a0 ^^^ a1 ^^^ a2 ^^^ a3) :
    sum = mixEntry sum a0 a1 ^^^ mixEntry sum a1 a2 ^^^ mixEntry sum a2 a3 ^^^ mixEntry sum a3 a0 := by
  subst hsum
  simp [mixEntry, xtime_xor, BitVec.xor_assoc, BitVec.xor_comm, byte_xor_left_comm]

/-- Mixing twice adds to a byte four times its sum with the byte two places on. -/
theorem mixEntry_mixEntry (sum a b c : Byte) :
    mixEntry sum (mixEntry sum a b) (mixEntry sum b c) = a ^^^ xtime (xtime (a ^^^ c)) := by
  simp [mixEntry, xtime_xor, BitVec.xor_assoc, BitVec.xor_comm, byte_xor_left_comm]

/-- A column given as a list, times the matrix. -/
def mixColumnList : List Byte → List Byte
  | [a0, a1, a2, a3] => mixColumn a0 a1 a2 a3
  | column => column

@[simp] theorem mixColumnList_four (a0 a1 a2 a3 : Byte) :
    mixColumnList [a0, a1, a2, a3] = mixColumn a0 a1 a2 a3 := rfl

/-- The square of the matrix. -/
theorem mixColumnList_mixColumn (a0 a1 a2 a3 : Byte) :
    mixColumnList (mixColumn a0 a1 a2 a3) =
      [a0 ^^^ xtime (xtime (a0 ^^^ a2)), a1 ^^^ xtime (xtime (a1 ^^^ a3)),
       a2 ^^^ xtime (xtime (a2 ^^^ a0)), a3 ^^^ xtime (xtime (a3 ^^^ a1))] := by
  rw [mixColumn_eq_mixEntry rfl, mixColumnList_four, mixColumn_eq_mixEntry (sum_mixEntry rfl)]
  simp only [mixEntry_mixEntry]

/-- What the square adds to a byte it adds to the byte two places on too, so their sum stays and the square is its own
inverse: the matrix is of order four (R95). -/
theorem mixColumnList_leftInverse (a0 a1 a2 a3 : Byte) :
    mixColumnList (mixColumnList (mixColumnList (mixColumn a0 a1 a2 a3))) = [a0, a1, a2, a3] := by
  rw [mixColumnList_mixColumn, mixColumnList_four, mixColumnList_mixColumn]
  simp [xtime_xor, BitVec.xor_assoc, BitVec.xor_comm]

theorem mixColumn_injective {a0 a1 a2 a3 b0 b1 b2 b3 : Byte} (h : mixColumn a0 a1 a2 a3 = mixColumn b0 b1 b2 b3) :
    [a0, a1, a2, a3] = [b0, b1, b2, b3] := by
  rw [← mixColumnList_leftInverse a0 a1 a2 a3, h, mixColumnList_leftInverse]

theorem mixColumns_injective : Function.Injective mixColumns := by
  intro X Y h
  have hmixed : ∀ c < 4, mixedColumn X c = mixedColumn Y c := by
    intro c hc
    refine List.ext_getElem rfl fun r hr hr' => ?_
    have hr4 : r < 4 := hr
    have hbyte := congrArg (fun Z => blockByte Z (4 * c + r)) h
    simpa [blockByte_mixColumns _ c r hc hr4, hr, hr'] using hbyte
  apply block_ext
  intro i hi
  have hcol := mixColumn_injective (hmixed (i / 4) (by omega))
  simp only [List.cons.injEq, and_true] at hcol
  obtain ⟨h0, h1, h2, h3⟩ := hcol
  have hr : i % 4 = 0 ∨ i % 4 = 1 ∨ i % 4 = 2 ∨ i % 4 = 3 := by omega
  rw [← Nat.div_add_mod i 4]
  rcases hr with hr | hr | hr | hr <;> rw [hr]
  · exact h0
  · exact h1
  · exact h2
  · exact h3

theorem aesRound_injective (K : Block128) : Function.Injective fun X => aesRound X K := by
  intro X Y h
  have hmix : mixColumns (subBytes (shiftRows X)) = mixColumns (subBytes (shiftRows Y)) :=
    (BitVec.xor_left_inj K).mp h
  exact shiftRows_injective (subBytes_injective (mixColumns_injective hmix))

/-- The round is linear in the key (R100). -/
theorem aesRound_eq_xor_key (X K : Block128) : aesRound X K = aesRound X 0 ^^^ K := by
  rw [aesRound, aesRound, addRoundKey, addRoundKey, show (0 : Block128) = 0#128 from rfl, BitVec.xor_zero]

end Sys2Proof.Machine

/-! The obligations about the AES round and `shuffle`. -/

namespace Sys2Proof.Proofs

open Sys2Proof.Machine

/-- Settles O12: one lemma for all sixteen bytes, at the four rows of a column. -/
theorem aesRoundBytes : Obligations.AesRoundBytes := by
  refine ⟨fun X K c hc => ⟨?_, ?_, ?_, ?_⟩, fun K i hi => blockByte_aesRound_zero K hi, aesRound_workedExamples⟩
  · exact blockByte_aesRound X K (r := 0) hc (by omega)
  · exact blockByte_aesRound X K (r := 1) hc (by omega)
  · exact blockByte_aesRound X K (r := 2) hc (by omega)
  · exact blockByte_aesRound X K (r := 3) hc (by omega)

/-- Settles O13: an injective map of a finite type is a bijection. -/
theorem aesRoundLaws : Obligations.AesRoundLaws :=
  ⟨aesRound_eq_xor_key, fun K => Finite.injective_iff_bijective.mp (aesRound_injective K),
    fun _ _ _ _ _ hi hkey hdata => blockByte_aesRound_congr hi hkey hdata⟩

/-- Settles O14: one moves bytes, the other changes each where it stands. -/
theorem subBytesCommutesWithShiftRows : Obligations.SubBytesCommutesWithShiftRows := by
  intro X
  apply block_ext
  intro i hi
  rw [blockByte_subBytes _ _ hi, blockByte_shiftRows _ _ hi, blockByte_shiftRows _ _ hi,
    blockByte_subBytes _ _ (shiftRowsSource_lt i)]

/-- Settles O16: the table names every byte, so no block is lost. -/
theorem shuffleMovesBytes : Obligations.ShuffleMovesBytes :=
  ⟨Finite.injective_iff_bijective.mp shuffle_injective, blockByte_shuffle⟩

/-- Settles O11: the byte before the affine map is the S-box's byte with the affine map undone. -/
theorem sboxIsAffineInverse : Obligations.SboxIsAffineInverse := by
  refine ⟨fun a => ⟨affineInverse (sbox a), ?_, gmul_affineInverse_sbox a, affine_affineInverse (sbox a)⟩,
    Finite.injective_iff_bijective.mp sbox_injective, sbox_ne_self⟩
  rintro rfl
  exact affineInverse_sbox_zero

end Sys2Proof.Proofs
